-- ==== Sys2Proof/Word.lean ====
section
/-! DEFINITION. The word types of the block (00_scope.md R8, R9): every register, buffer entry, byte and index is unsigned. -/

namespace Sys2Proof

/-- One symbol, one MTF index, one byte lane of the bus (R8: R = 256, MTF index width 8). -/
abbrev Byte := BitVec 8

/-- A register, a bus word, a PERM entry (R8: 32 bits). -/
abbrev Word := BitVec 32

/-- A byte offset inside the block's 8 MiB window (R8: 23 bits). -/
abbrev Offset := BitVec 23

end Sys2Proof
end

