-- ==== Sys2Proof/Syntax.lean ====
section
/-! DEFINITION. The block's commands (30_encoding.md, opcode_table.json): operations, instructions, command fields, error names. -/

namespace Sys2Proof

/-- The six operations (R2, R81). -/
inductive Op where
  | nop
  | sort
  | bwtf
  | bwti
  | mtfe
  | mtfd
  deriving DecidableEq, Repr

/-- One constructor per row of the opcode table (R88). A command carries no operand: all are implicit (R84). -/
inductive Instr where
  /-- NOP (R106) -/
  | nop
  /-- SORT: suffixSort at full depth (R126) -/
  | sort
  /-- SORT.CUT: suffixSort with the legacy depth cutoff (R126, R127) -/
  | sortCut
  /-- BWTF: bwtForward at full depth (R141) -/
  | bwtf
  /-- BWTF.CUT: bwtForward with the legacy depth cutoff (R141) -/
  | bwtfCut
  /-- BWTI: bwtInverse (R144) -/
  | bwti
  /-- MTFE: mtfEncode (R162) -/
  | mtfe
  /-- MTFD: mtfDecode (R164) -/
  | mtfd
  deriving DecidableEq, Repr

/-- The operation an instruction names (R81). -/
def Instr.op : Instr → Op
  | .nop => .nop
  | .sort => .sort
  | .sortCut => .sort
  | .bwtf => .bwtf
  | .bwtfCut => .bwtf
  | .bwti => .bwti
  | .mtfe => .mtfe
  | .mtfd => .mtfd

/-- The CUT option of an instruction (R82). -/
def Instr.cut : Instr → Bool
  | .nop => false
  | .sort => false
  | .sortCut => true
  | .bwtf => false
  | .bwtfCut => true
  | .bwti => false
  | .mtfe => false
  | .mtfd => false

/-- The fields of a command word, format CMDW (R80). -/
structure CmdFields where
  op   : BitVec 4
  rsv0 : BitVec 4
  cut  : BitVec 1
  rsv1 : BitVec 23
  deriving DecidableEq, Repr

/-- The command errors (R201). Their codes are `CmdError.code`. -/
inductive CmdError where
  /-- ILLEGAL_OP, code 1 -/
  | illegalOp
  /-- RSVD_FIELD, code 2 -/
  | rsvdField
  /-- LEN_RANGE, code 3 -/
  | lenRange
  /-- FIRST_RANGE, code 4 -/
  | firstRange
  deriving DecidableEq, Repr

/-- What decoding a word gives: an instruction or the error that names why there is none (R85). -/
inductive Decoded where
  | instr (i : Instr)
  | error (e : CmdError)
  deriving DecidableEq, Repr

end Sys2Proof
end

