-- ==== Sys2Proof/WellFormed.lean ====
section
/-! DEFINITION. Well-formed command fields and instructions (30_encoding.md R80 to R83, R86). -/

namespace Sys2Proof

/-- OP names an operation: `0x6` to `0xF` are reserved (R81). -/
def CmdFields.opDefined (f : CmdFields) : Bool := decide (f.op.toNat < 6)

/-- RSV0 and RSV1 are zero (R83). -/
def CmdFields.reservedZero (f : CmdFields) : Bool := decide (f.rsv0 = 0#4) && decide (f.rsv1 = 0#23)

/-- CUT is set only with SORT or BWTF (R82). -/
def CmdFields.cutLegal (f : CmdFields) : Bool :=
  decide (f.cut = 0#1) || decide (f.op = 1#4) || decide (f.op = 2#4)

/-- A command word that decodes: the three checks together (R85, R86). -/
def CmdFields.wellFormed (f : CmdFields) : Bool := f.opDefined && f.reservedZero && f.cutLegal

/-- An instruction carries CUT only with SORT or BWTF (R82). It has no operand to check (R84). -/
def Instr.wellFormed (i : Instr) : Bool := !i.cut || i.op == .sort || i.op == .bwtf

end Sys2Proof
end

