-- ==== Sys2Proof/Decode.lean ====
section
/-! DEFINITION. Decoding a command word (30_encoding.md R80 to R87), total on all 2^32 words, and the encoder. -/

namespace Sys2Proof

/-- The fields of a word (R80). -/
def fieldsOf (w : Word) : CmdFields :=
  { op := w.extractLsb' 0 4, rsv0 := w.extractLsb' 4 4, cut := w.extractLsb' 8 1, rsv1 := w.extractLsb' 9 23 }

/-- The word of the fields (R80: RSV1 31:9, CUT 8, RSV0 7:4, OP 3:0). -/
def wordOf (f : CmdFields) : Word := f.rsv1 ++ f.cut ++ f.rsv0 ++ f.op

/-- The OP value of an operation (R81). -/
def Op.code : Op → BitVec 4
  | .nop => 0x0#4
  | .sort => 0x1#4
  | .bwtf => 0x2#4
  | .bwti => 0x3#4
  | .mtfe => 0x4#4
  | .mtfd => 0x5#4

/-- The operation an OP value selects, none for the reserved values (R81). -/
def opOf (v : BitVec 4) : Option Op :=
  match v.toNat with
  | 0 => some .nop
  | 1 => some .sort
  | 2 => some .bwtf
  | 3 => some .bwti
  | 4 => some .mtfe
  | 5 => some .mtfd
  | _ => none

/-- The instruction of an operation and its CUT bit, none where CUT is not legal (R82). -/
def instrOf : Op → Bool → Option Instr
  | .nop, false => some .nop
  | .sort, false => some .sort
  | .sort, true => some .sortCut
  | .bwtf, false => some .bwtf
  | .bwtf, true => some .bwtfCut
  | .bwti, false => some .bwti
  | .mtfe, false => some .mtfe
  | .mtfd, false => some .mtfd
  | .nop, true => none
  | .bwti, true => none
  | .mtfe, true => none
  | .mtfd, true => none

/-- `Decode(w)` of R85, its checks in that rule's order. -/
def decode (w : Word) : Decoded :=
  match opOf (fieldsOf w).op with
  | none => .error .illegalOp
  | some op =>
    if (fieldsOf w).reservedZero then
      match instrOf op ((fieldsOf w).cut == 1#1) with
      | some i => .instr i
      | none => .error .rsvdField
    else .error .rsvdField

/-- The command word of an instruction (R80, R81, R88). -/
def encode (i : Instr) : Word :=
  wordOf { op := i.op.code, rsv0 := 0#4, cut := if i.cut then 1#1 else 0#1, rsv1 := 0#23 }

/-- The bus word that `nbits` bits of an opcode-table row stand for: a command is one 32-bit word (R87), so bits above
`nbits` are zero and a number that does not fit 32 bits is no command word. -/
def tableWord (nbits w : Nat) : Option Word :=
  if w % 2 ^ nbits < 2 ^ 32 then some (BitVec.ofNat 32 (w % 2 ^ nbits)) else none

/-- The instruction the decoder reads from a word numbered as spec/opcode_table.json numbers it. -/
def decodeTableWord (nbits w : Nat) : Option Instr :=
  match tableWord nbits w with
  | none => none
  | some v =>
    match decode v with
    | .instr i => some i
    | .error _ => none

end Sys2Proof
end

