-- ==== Sys2Proof/Config.lean ====
section
/-! DEFINITION. What is fixed for the block, the values State.reset takes for the two OPEN parameters, and the free values. -/

namespace Sys2Proof

/-- ID reads `0x4257544D` (R23). -/
def Config.idValue : Word := 0x4257544D#32

/-- VERSION reads `0x00000001` (R23). -/
def Config.versionValue : Word := 0x00000001#32

/-- The largest NMAX a block may have (R8: 1 <= NMAX <= 2^20). -/
abbrev Config.nmaxLimit : Nat := 1048576

/-- BASE is a multiple of this, the size of the block's window (R8, R61: 2^23). -/
abbrev Config.windowSize : Nat := 8388608

/-- DESIGN CHOICE (notes/assumptions/1.md, unsafe): the NMAX of `State.reset`. NMAX is OPEN (R8); every statement holds
for every NMAX, because it quantifies over the state that carries it. -/
def Config.nmaxAtReset : Nat := 1048576

/-- DESIGN CHOICE (notes/assumptions/2.md, unsafe): the BASE of `State.reset`. BASE is OPEN (R8). -/
def Config.baseAtReset : Nat := 0

/-- Free value (notes/assumptions/3.md): what the buffer byte at a block offset holds after the given number of reset
events, until something writes it (R231, U2: one draw per byte, fixed until written). -/
opaque Config.unspecifiedByte : Nat → Nat → Byte

/-- Free value (notes/assumptions/4.md): the word drawn for an `any` read (R206, R241, U4, U5: a fresh draw per read). -/
opaque Config.anyRead : Nat → Word

end Sys2Proof
end

