-- ==== Sys2Proof/Machine/State.lean ====
section
/-! DEFINITION. The state of the block (10_state.md), its host interface as plain data, and `State.reset` (R230). -/

namespace Sys2Proof.Machine

/-- The OPEN parameters of the block (R8), fixed for one machine: no rule writes them. A claim over every state is a
claim over every NMAX and BASE. -/
structure Params where
  /-- NMAX: capacity of SRC and DST in bytes and of PERM in entries; CAPS reads it (R8, R23). -/
  nmax : Nat
  /-- BASE: the platform address of the window (R8, R61). -/
  base : Nat
  deriving DecidableEq, Repr

/-- The STATUS fields that are stored (R25). BUSY is read from the engine (R34); the reserved fields are zero. -/
structure Status where
  /-- DONE, bit 1 -/
  done    : Bool
  /-- ERR, bit 2 -/
  err     : Bool
  /-- OVR, bit 3 -/
  ovr     : Bool
  /-- ERRCODE, bits 11:8 -/
  errcode : BitVec 4
  deriving DecidableEq, Repr

/-- The engine's phase (R34). While BUSY it holds the pending command, that is its opcode and CUT bit, and the remaining
time in cycles. The command's LEN, FIRST and SRC operands are the registers and the buffer themselves, frozen while BUSY (R34). -/
inductive Engine where
  | idle
  | busy (cmd : Instr) (remaining : Nat)
  deriving DecidableEq, Repr

/-- The register names of the register map (R22). -/
inductive Reg where
  | id
  | version
  | caps
  | cmd
  | status
  | len
  | first
  | firstOut
  | irqEn
  deriving DecidableEq, Repr

/-- What an aligned offset of the 23-bit space names (R22): a register, a word of a buffer window by its number, or a
reserved offset. -/
inductive Loc where
  | reg (r : Reg)
  /-- word `k` of the SRC window: bytes 4k to 4k+3 -/
  | src (k : Nat)
  /-- word `k` of the DST window: bytes 4k to 4k+3 -/
  | dst (k : Nat)
  /-- entry `i` of the PERM window -/
  | perm (i : Nat)
  | reserved
  deriving DecidableEq, Repr

/-- The size of a request in bytes: 1, 2 or 4 (R60). -/
inductive Size where
  | one
  | two
  | four
  deriving DecidableEq, Repr

/-- The kind of a request, a write with its `wdata` (R60). -/
inductive Kind where
  | read
  | write (wdata : Word)
  deriving DecidableEq, Repr

/-- A host request (R60). -/
structure Request where
  kind   : Kind
  offset : Offset
  size   : Size
  deriving DecidableEq, Repr

/-- The response to a request: `rdata` for a read, and `err` (R60). -/
structure Response where
  rdata : Option Word
  err   : Bool
  deriving DecidableEq, Repr

/-- One thing that happens to the block from outside (R20, R60), in the order it happens. The list of them in `State` is
the schedule: it alone decides how completion steps and host requests interleave (R207; notes/assumptions/5.md). -/
inductive Input where
  /-- a host request; if it makes the block accept a valid command, that command's T is `latency + 1` (R103: any T >= 1) -/
  | request (r : Request) (latency : Nat)
  /-- one cycle passes without a request -/
  | cycle
  /-- the reset input (R230) -/
  | reset
  /-- a request in flight while reset arrives, whose response and effect are unspecified (R233) -/
  | resetDuring (r : Request)
  deriving DecidableEq, Repr

/-- Buffer storage: the bytes written since reset at their block offsets, SRC at `0x100000 + i`, DST at `0x200000 + i`,
PERM entry i at `0x400000 + 4*i` (R31 to R33). An unlisted offset holds no value of the model's choosing. -/
abbrev Memory := List Host.Cell

/-- Why a step faults. -/
inductive Fault where
  /-- Raised by the input `resetDuring`: a host request overlaps reset, its response and effect are unspecified (R233,
  U9: "A model that must represent it may go stuck"). Safe: the model stops where the block goes on. -/
  | requestDuringReset
  deriving DecidableEq, Repr

/-- Why an instruction has no meaning. -/
inductive Refusal where
  /-- Raised by no arm of `exec`: every instruction of the table has a meaning. Safe. -/
  | notModelled (mnemonic : String)
  deriving DecidableEq, Repr

/-- The block. -/
structure State where
  /-- NMAX and BASE (R8) -/
  params   : Params
  /-- CMD (R24) -/
  cmd      : Word
  /-- STATUS (R25), less BUSY -/
  status   : Status
  /-- LEN (R26) -/
  len      : Word
  /-- FIRST (R27) -/
  first    : Word
  /-- FIRST_OUT (R28) -/
  firstOut : Word
  /-- IRQ_EN: bit 0 DONE_IE, bit 1 OVR_IE (R29) -/
  irqEn    : BitVec 2
  /-- phase, pending command, remaining time (R34) -/
  engine   : Engine
  /-- SRC, DST, PERM (R31 to R33) -/
  mem      : Memory
  /-- what happens next from outside, oldest first (R60) -/
  inputs   : List Input
  /-- the response to the latest request (R60), none since reset -/
  response : Option Response
  /-- the model's own: how many requests have been answered, which numbers the `any` draws (R241) -/
  draws    : Nat
  /-- the model's own: how many reset events have happened, which numbers the unspecified contents (R231) -/
  resets   : Nat
  deriving DecidableEq, Repr

/-- The block right after reset (R230). Nothing is listed in memory, because buffer contents are unspecified (R231).
The parameters and the model's own counters are named in notes/assumptions/1.md, 2.md, 3.md and 4.md. -/
def State.reset : State :=
  { params   := { nmax := Config.nmaxAtReset, base := Config.baseAtReset }
    cmd      := 0x00000000#32
    status   := { done := false, err := false, ovr := false, errcode := 0x0#4 }
    len      := 0x00000000#32
    first    := 0x00000000#32
    firstOut := 0x00000000#32
    irqEn    := 0b00#2
    engine   := .idle
    mem      := []
    inputs   := []
    response := none
    draws    := 0
    resets   := 0 }

def State.setCmd (s : State) (v : Word) : State := { s with cmd := v }
def State.setStatus (s : State) (v : Status) : State := { s with status := v }
def State.setLen (s : State) (v : Word) : State := { s with len := v }
def State.setFirst (s : State) (v : Word) : State := { s with first := v }
def State.setFirstOut (s : State) (v : Word) : State := { s with firstOut := v }
def State.setIrqEn (s : State) (v : BitVec 2) : State := { s with irqEn := v }
def State.setEngine (s : State) (v : Engine) : State := { s with engine := v }
def State.setMem (s : State) (v : Memory) : State := { s with mem := v }
def State.setInputs (s : State) (v : List Input) : State := { s with inputs := v }
def State.setResponse (s : State) (v : Option Response) : State := { s with response := v }
def State.setDraws (s : State) (v : Nat) : State := { s with draws := v }

end Sys2Proof.Machine
end

