-- ==== Sys2Proof/Machine/Flags.lean ====
section
/-! DEFINITION. STATUS (R25): its word, every way it changes (R107), the error codes (R201), and the interrupt line (R210). -/

namespace Sys2Proof

/-- The ERRCODE of a command error (R201). -/
def CmdError.code : CmdError → BitVec 4
  | .illegalOp => 1#4
  | .rsvdField => 2#4
  | .lenRange => 3#4
  | .firstRange => 4#4

end Sys2Proof

namespace Sys2Proof.Machine

/-- STATUS.BUSY: 1 while `phase = BUSY` (R25, R34). -/
def Engine.isBusy : Engine → Bool
  | .idle => false
  | .busy _ _ => true

/-- A flag as one bit. -/
def flagBit (b : Bool) : BitVec 1 := if b then 1#1 else 0#1

/-- The STATUS word (R25): reserved 31:12, ERRCODE 11:8, reserved 7:4, OVR 3, ERR 2, DONE 1, BUSY 0. -/
def statusWord (busy : Bool) (st : Status) : Word :=
  0#20 ++ st.errcode ++ 0#4 ++ flagBit st.ovr ++ flagBit st.err ++ flagBit st.done ++ flagBit busy

/-- Acceptance of any command clears DONE, ERR and ERRCODE and leaves OVR (R101). -/
def Status.accepted (st : Status) : Status := { st with done := false, err := false, errcode := 0#4 }

/-- Failed completion sets ERR, ERRCODE and DONE (R102). -/
def Status.failed (st : Status) (e : CmdError) : Status := { st with done := true, err := true, errcode := e.code }

/-- The completion step sets DONE and leaves ERR, ERRCODE and OVR (R104). -/
def Status.completed (st : Status) : Status := { st with done := true }

/-- A dropped protected write sets OVR (R240). -/
def Status.overrun (st : Status) : Status := { st with ovr := true }

/-- A host write of STATUS: bit 1 clears DONE, bit 3 clears OVR, every other bit is ignored (R108). -/
def Status.hostWrite (st : Status) (v : Word) : Status :=
  { st with done := st.done && !v.getLsbD 1, ovr := st.ovr && !v.getLsbD 3 }

/-- IRQ_EN.DONE_IE (R29). -/
def State.doneIe (s : State) : Bool := s.irqEn.getLsbD 0

/-- IRQ_EN.OVR_IE (R29). -/
def State.ovrIe (s : State) : Bool := s.irqEn.getLsbD 1

/-- The interrupt output, a level computed from the state (R210). -/
def State.irq (s : State) : Bool := (s.status.done && s.doneIe) || (s.status.ovr && s.ovrIe)

/-- `phase = BUSY` (R34). -/
def State.busy (s : State) : Bool := s.engine.isBusy

end Sys2Proof.Machine
end

