-- ==== Sys2Proof/Machine/Operands.lean ====
section
/-! DEFINITION. Buffer storage, the engine's view of the buffers, operand assembly (30_encoding.md R84) and the operand checks (R101). -/

namespace Sys2Proof.Machine

/-- Block offset of SRC[0] (R22). -/
abbrev srcBase : Nat := 0x100000
/-- Block offset of DST[0] (R22). -/
abbrev dstBase : Nat := 0x200000
/-- Block offset of PERM[0] (R22). -/
abbrev permBase : Nat := 0x400000

/-- The byte written at an offset since reset, none if nothing has written it (R231). -/
def Memory.read? : Memory → Nat → Option Byte
  | [], _ => none
  | (a, b) :: m, k => if a = k then some b else Memory.read? m k

/-- Writes one byte, keeping the offsets strictly rising. -/
def Memory.write : Memory → Nat → Byte → Memory
  | [], k, v => [(k, v)]
  | (a, b) :: m, k, v =>
    if k < a then (k, v) :: (a, b) :: m
    else if k = a then (k, v) :: m
    else (a, b) :: Memory.write m k v

/-- Writes bytes at consecutive offsets. -/
def Memory.writeBytes : Memory → Nat → List Byte → Memory
  | m, _, [] => m
  | m, a, b :: bs => Memory.writeBytes (m.write a b) (a + 1) bs

/-- The canonical form: offsets strictly rising. A listed offset holds a written byte and an unlisted one reads as
`none`, so no entry equals what an unlisted offset reads as. -/
def Memory.wf : Memory → Bool
  | [] => true
  | [_] => true
  | (a, _) :: (c, d) :: m => decide (a < c) && Memory.wf ((c, d) :: m)

/-- Byte lane `j` of a bus word (R63: lane 0 is bits 7:0). -/
def laneOf (w : Word) (j : Nat) : Byte := w.extractLsb' (8 * j) 8

/-- The bus word of four bytes, the first in bits 7:0 (R63). -/
def wordOfBytes (b0 b1 b2 b3 : Byte) : Word := b3 ++ b2 ++ b1 ++ b0

/-- The four bytes of a word, little-endian (R63, R66). -/
def bytesOfWord (w : Word) : List Byte := [laneOf w 0, laneOf w 1, laneOf w 2, laneOf w 3]

/-- `zext_32` of an index (R10, R33). -/
def indexWord (n : Nat) : Word := BitVec.ofNat 32 n

/-- What the buffer byte at a block offset holds: the byte written there, else the unspecified one (R231, U2). -/
def State.byteAt (s : State) (a : Nat) : Byte := (s.mem.read? a).getD (Config.unspecifiedByte s.resets a)

/-- SRC[i] (R31). -/
def State.srcByte (s : State) (i : Nat) : Byte := s.byteAt (srcBase + i)
/-- DST[i] (R32). -/
def State.dstByte (s : State) (i : Nat) : Byte := s.byteAt (dstBase + i)
/-- PERM[i] (R33). -/
def State.permEntry (s : State) (i : Nat) : Word :=
  wordOfBytes (s.byteAt (permBase + 4 * i)) (s.byteAt (permBase + 4 * i + 1))
    (s.byteAt (permBase + 4 * i + 2)) (s.byteAt (permBase + 4 * i + 3))

/-- `n = LEN` as an unsigned integer (R84). -/
abbrev State.n (s : State) : Nat := s.len.toNat

/-- `SRC[0..n-1]` with `n = LEN` (R84). -/
def State.operand (s : State) : List Byte := (List.range s.n).map s.srcByte

/-- `first = FIRST` as an unsigned integer (R84). -/
abbrev State.firstIndex (s : State) : Nat := s.first.toNat

/-- NMAX (R8). -/
abbrev State.nmax (s : State) : Nat := s.params.nmax

/-- `LEN > NMAX` (R101, code 3). -/
def State.lenError (s : State) : Option CmdError := if s.n > s.nmax then some .lenRange else none

/-- `LEN >= 1 and FIRST >= LEN` (R101, code 4). -/
def State.firstError (s : State) : Option CmdError :=
  if 1 ≤ s.n ∧ s.n ≤ s.firstIndex then some .firstRange else none

/-- The operand checks of `Validate`, in its order: LEN for every operation but NOP, then FIRST for BWTI (R101, R202). -/
def operandError (i : Instr) (s : State) : Option CmdError :=
  match i.op with
  | .nop => none
  | .sort => s.lenError
  | .bwtf => s.lenError
  | .bwti => s.lenError.or s.firstError
  | .mtfe => s.lenError
  | .mtfd => s.lenError

/-- `DST[k] <- out[k]` for each k (R141, R144, R162, R164). -/
def State.storeDst (s : State) (out : List Byte) : State := s.setMem (s.mem.writeBytes dstBase out)

/-- `PERM[r] <- zext_32(index[r])` for each r (R126, R141). -/
def State.storePerm (s : State) (index : List Nat) : State :=
  s.setMem (s.mem.writeBytes permBase (index.flatMap fun i => bytesOfWord (indexWord i)))

end Sys2Proof.Machine
end

