-- ==== Sys2Proof/Machine/Ops.lean ====
section
/-! DEFINITION. The command lifecycle (40_control.md R100 to R104), the block's form of taking an exception (R203) and of
acknowledging it (R204), and reset (R230). -/

namespace Sys2Proof.Machine

/-- `FailComplete(code)` (R102), the block's one form of trap entry (R203): ERR, ERRCODE and DONE are set, the phase is
IDLE, and nothing else changes. -/
def State.failComplete (s : State) (e : CmdError) : State :=
  (s.setStatus (s.status.failed e)).setEngine .idle

/-- The host's acknowledgement (R204) and its only way to clear a flag: the STATUS write (R108). -/
def State.writeStatus (s : State) (v : Word) : State := s.setStatus (s.status.hostWrite v)

/-- `EnterBusy` with the time T drawn for the command (R103). -/
def State.enterBusy (s : State) (i : Instr) (t : Nat) : State := s.setEngine (.busy i t)

/-- The end of the completion step: phase IDLE and DONE set (R104). -/
def State.complete (s : State) : State := (s.setStatus s.status.completed).setEngine .idle

/-- `Validate(w)`: decode, then the operand checks (R101). -/
def validate (w : Word) (s : State) : Decoded :=
  match decode w with
  | .error e => .error e
  | .instr i =>
    match operandError i s with
    | some e => .error e
    | none => .instr i

/-- What acceptance does before validation: CMD takes the word, DONE, ERR and ERRCODE are cleared (R101). -/
def State.takeCommand (s : State) (w : Word) : State := (s.setCmd w).setStatus s.status.accepted

/-- `Accept(w)` (R101), with T = `latency + 1` for a valid command. -/
def State.accept (s : State) (w : Word) (latency : Nat) : State :=
  match validate w s with
  | .error e => (s.takeCommand w).failComplete e
  | .instr i => (s.takeCommand w).enterBusy i (latency + 1)

/-- A command run on the operands in the state: if they fail its checks it fails (R102), else it completes with the
outputs its rule writes (R104, R105). The engine reaches it only with operands that passed at acceptance. -/
def runCommand (i : Instr) (s : State) (outputs : State) : Host.Outcome State Fault Refusal :=
  match operandError i s with
  | some e => .next (s.failComplete e)
  | none => .next outputs.complete

/-- The reset input (R230): every register and the engine as after reset, buffers unspecified again (R231). The
parameters, the schedule and the count of draws are not the block's to reset. -/
def State.resetBlock (s : State) : State :=
  { State.reset with params := s.params, inputs := s.inputs, draws := s.draws, resets := s.resets + 1 }

end Sys2Proof.Machine
end

