-- ==== Sys2Proof/Machine/Bus.lean ====
section
/-! DEFINITION. The host bus (20_memory.md): offset decode, reads, writes, error responses, and the platform's routing. -/

namespace Sys2Proof.Machine

/-- The offset of a register (R22). -/
def Reg.offset : Reg → Nat
  | .id => 0x00
  | .version => 0x04
  | .caps => 0x08
  | .cmd => 0x10
  | .status => 0x14
  | .len => 0x18
  | .first => 0x1C
  | .firstOut => 0x20
  | .irqEn => 0x24

/-- What an aligned offset names (R22). Every offset it does not assign is reserved (R30). -/
def locOf (off : Nat) : Loc :=
  if off = 0x00 then .reg .id
  else if off = 0x04 then .reg .version
  else if off = 0x08 then .reg .caps
  else if off = 0x10 then .reg .cmd
  else if off = 0x14 then .reg .status
  else if off = 0x18 then .reg .len
  else if off = 0x1C then .reg .first
  else if off = 0x20 then .reg .firstOut
  else if off = 0x24 then .reg .irqEn
  else if 0x100000 ≤ off ∧ off ≤ 0x1FFFFF then .src ((off - 0x100000) / 4)
  else if 0x200000 ≤ off ∧ off ≤ 0x2FFFFF then .dst ((off - 0x200000) / 4)
  else if 0x400000 ≤ off ∧ off ≤ 0x7FFFFF then .perm ((off - 0x400000) / 4)
  else .reserved

/-- The locations whose write while BUSY is dropped with OVR (R65, R240): CMD, LEN, FIRST and the buffers, that is every
window word with a byte below NMAX. DEDUCED (notes/assumptions/8.md): a window word wholly at or beyond NMAX is reserved
(R30), and a write there sets no OVR, as decision D31 rules. -/
def Loc.isProtected (nmax : Nat) : Loc → Bool
  | .reg .id => false
  | .reg .version => false
  | .reg .caps => false
  | .reg .cmd => true
  | .reg .status => false
  | .reg .len => true
  | .reg .first => true
  | .reg .firstOut => false
  | .reg .irqEn => false
  | .src k => decide (4 * k < nmax)
  | .dst k => decide (4 * k < nmax)
  | .perm i => decide (i < nmax)
  | .reserved => false

/-- `MemRead` of a register (R23 to R29); FIRST_OUT is `any` while BUSY (R64, R241). -/
def State.readReg (s : State) (any : Word) : Reg → Word
  | .id => Config.idValue
  | .version => Config.versionValue
  | .caps => indexWord s.nmax
  | .cmd => s.cmd
  | .status => statusWord s.busy s.status
  | .len => s.len
  | .first => s.first
  | .firstOut => if s.busy then any else s.firstOut
  | .irqEn => s.irqEn.setWidth 32

/-- `B(SRC, j)` (R64). -/
def State.srcLane (s : State) (j : Nat) : Byte := if j < s.nmax then s.srcByte j else 0x00#8

/-- `D(j)` (R64): `any`, lane by lane, while BUSY. -/
def State.dstLane (s : State) (any : Word) (j : Nat) : Byte :=
  if s.nmax ≤ j then 0x00#8 else if s.busy then laneOf any (j % 4) else s.dstByte j

/-- `MemRead(off, 4)` (R64). `any` is the draw of this read. -/
def State.memRead (s : State) (any : Word) (off : Nat) : Word :=
  match locOf off with
  | .reg r => s.readReg any r
  | .src k => wordOfBytes (s.srcLane (4 * k)) (s.srcLane (4 * k + 1)) (s.srcLane (4 * k + 2)) (s.srcLane (4 * k + 3))
  | .dst k =>
    wordOfBytes (s.dstLane any (4 * k)) (s.dstLane any (4 * k + 1)) (s.dstLane any (4 * k + 2)) (s.dstLane any (4 * k + 3))
  | .perm i => if s.nmax ≤ i then 0x00000000#32 else if s.busy then any else s.permEntry i
  | .reserved => 0x00000000#32

/-- One byte lane of a buffer write: a lane at or beyond NMAX is ignored (R63, R65). -/
def State.writeLane (s : State) (base j : Nat) (b : Byte) : State :=
  if j < s.nmax then s.setMem (s.mem.write (base + j) b) else s

/-- The four byte lanes of a write to word `k` of a byte window (R65). -/
def State.writeWord (s : State) (base k : Nat) (v : Word) : State :=
  (((s.writeLane base (4 * k) (laneOf v 0)).writeLane base (4 * k + 1) (laneOf v 1)).writeLane base (4 * k + 2)
    (laneOf v 2)).writeLane base (4 * k + 3) (laneOf v 3)

/-- A write to entry `i` of the PERM window: ignored at or beyond NMAX (R63, R65). -/
def State.writePerm (s : State) (i : Nat) (v : Word) : State :=
  if i < s.nmax then s.setMem (s.mem.writeBytes (permBase + 4 * i) (bytesOfWord v)) else s

/-- A write to a register (R65): CMD is accepted, STATUS is W1C, RO registers ignore it. -/
def State.writeReg (s : State) (v : Word) (latency : Nat) : Reg → State
  | .id => s
  | .version => s
  | .caps => s
  | .cmd => s.accept v latency
  | .status => s.writeStatus v
  | .len => s.setLen v
  | .first => s.setFirst v
  | .firstOut => s
  | .irqEn => s.setIrqEn (v.setWidth 2)

/-- A dropped protected write (R240). -/
def State.dropWrite (s : State) : State := s.setStatus s.status.overrun

/-- `MemWrite(off, 4, v)` (R65). -/
def State.memWrite (s : State) (off : Nat) (v : Word) (latency : Nat) : State :=
  if s.busy && (locOf off).isProtected s.nmax then s.dropWrite
  else
    match locOf off with
    | .reg r => s.writeReg v latency r
    | .src k => s.writeWord srcBase k v
    | .dst k => s.writeWord dstBase k v
    | .perm i => s.writePerm i v
    | .reserved => s

/-- A request the block answers with data: 4 bytes wide and 4-byte aligned (R62, R67). -/
def Request.isAligned (r : Request) : Bool := decide (r.size = .four) && decide (r.offset.toNat % 4 = 0)

/-- The draw of the next request (R241: each read draws afresh). -/
def State.nextAny (s : State) : Word := Config.anyRead s.draws

/-- What a request does to the block, less its response: only an aligned write does anything (R62, R64, R206). -/
def State.applyRequest (s : State) (r : Request) (latency : Nat) : State :=
  if r.isAligned then
    match r.kind with
    | .read => s
    | .write v => s.memWrite r.offset.toNat v latency
  else s

/-- The response to a request (R60): `raise BusError` answers `err = 1` and a read of it `any` (R206). -/
def State.respond (s : State) (r : Request) : Response :=
  match r.kind with
  | .read => { rdata := some (if r.isAligned then s.memRead s.nextAny r.offset.toNat else s.nextAny), err := !r.isAligned }
  | .write _ => { rdata := none, err := !r.isAligned }

/-- One host request and its response, one atomic event (R68). -/
def State.request (s : State) (r : Request) (latency : Nat) : State :=
  ((s.applyRequest r latency).setResponse (some (s.respond r))).setDraws (s.draws + 1)

/-- The platform's routing of a host address: an address in `BASE .. BASE + 0x7FFFFF` reaches the block at
`offset = A - BASE`, any other never does (R61). -/
def Params.route (p : Params) (a : Nat) : Option Offset :=
  if p.base ≤ a ∧ a < p.base + Config.windowSize then some (BitVec.ofNat 23 (a - p.base)) else none

/-- A host access at a platform address joins the schedule if the platform routes it to the block (R60, R61). -/
def State.hostAccess (s : State) (kind : Kind) (a : Nat) (size : Size) (latency : Nat) : State :=
  match s.params.route a with
  | some off => s.setInputs (s.inputs ++ [.request { kind := kind, offset := off, size := size } latency])
  | none => s

end Sys2Proof.Machine
end

