-- ==== Sys2Proof/Machine/SuffixSort.lean ====
section
/-! DEFINITION. The circular suffix sort (41_suffix_sort.md): R120 to R122 and the commands SORT and SORT.CUT (R126). -/

namespace Sys2Proof.Machine

/-- `C(j, d) = s[(j + d) mod n]`, an unsigned byte (R120). -/
def charAt (s : List Byte) (j d : Nat) : Nat := (s.getD ((j + d) % s.length) 0#8).toNat

/-- The circular suffix `rot(s, i)` (R12): the length-n sequence of characters from offset `i` on, wrapping. -/
def rot (s : List Byte) (i : Nat) : List Nat := (List.range s.length).map (charAt s i)

/-- The depth bound `lim(n, cut)`, signed (R121). -/
def lim (n : Nat) (cut : Bool) : Int := if cut then ((n / 2 : Nat) : Int) - 1 else (n : Int) - 1

/-- `swap(index[i], index[j])` (R11). -/
def swapEntries (index : List Nat) (i j : Nat) : List Nat :=
  (index.set i (index.getD j 0)).set j (index.getD i 0)

/-- The scratch of one partition (R37): the working index and the zones `[lo, lt)`, `[lt, gtEnd)`, `[gtEnd, hiEnd)` it
has been cut into. `gtEnd` is `gt + 1`. -/
structure Partition where
  index : List Nat
  lt    : Nat
  gtEnd : Nat
  deriving DecidableEq, Repr

/-- The `while i <= gt` loop of R122. `unscanned` is `gt + 1 - i`, which every turn lowers by one. -/
def scan (s : List Byte) (d v : Nat) : (unscanned : Nat) → (lt i : Nat) → List Nat → Partition
  | 0, lt, i, index => { index := index, lt := lt, gtEnd := i }
  | left + 1, lt, i, index =>
    if charAt s (index.getD i 0) d < v then
      scan s d v left (lt + 1) (i + 1) (swapEntries index lt i)
    else if charAt s (index.getD i 0) d > v then
      scan s d v left lt i (swapEntries index i (i + left))
    else scan s d v left lt (i + 1) index

/-- The partition of `index[lo .. hiEnd-1]` at depth `d` about the first entry's character (R122). -/
def partitionAt (s : List Byte) (lo hiEnd d : Nat) (index : List Nat) : Partition :=
  scan s d (charAt s (index.getD lo 0) d) (hiEnd - (lo + 1)) lo (lo + 1) index

/-- `Sort3(lo, hi, d)` of R122 with `hiEnd = hi + 1` and the bound `L`. The first argument bounds the depth of the
recursion; `sortFuel` is enough of it (each call shrinks the range or deepens `d`). -/
def sort3 (s : List Byte) (L : Int) : Nat → (lo hiEnd d : Nat) → List Nat → List Nat
  | 0, _, _, _, index => index
  | fuel + 1, lo, hiEnd, d, index =>
    if hiEnd ≤ lo + 1 ∨ (d : Int) > L then index
    else
      match partitionAt s lo hiEnd d index with
      | { index := index', lt := lt, gtEnd := gtEnd } =>
        sort3 s L fuel gtEnd hiEnd d (sort3 s L fuel lt gtEnd (d + 1) (sort3 s L fuel lo lt d index'))

/-- A bound on the recursion depth of R122: a range of at most n entries and at most n depths. -/
def sortFuel (n : Nat) : Nat := 2 * n + 1

/-- `SortPerm(s, cut)` (R122). -/
def sortPerm (s : List Byte) (cut : Bool) : List Nat :=
  sort3 s (lim s.length cut) (sortFuel s.length) 0 s.length 0 (List.range s.length)

/-- SORT: PERM takes the permutation of the full-depth sort (R126). -/
def execSort (s : State) : Host.Outcome State Fault Refusal :=
  runCommand .sort s (s.storePerm (sortPerm s.operand false))

/-- SORT.CUT: PERM takes the permutation of the sort with the legacy cutoff (R126, R127). -/
def execSortCut (s : State) : Host.Outcome State Fault Refusal :=
  runCommand .sortCut s (s.storePerm (sortPerm s.operand true))

end Sys2Proof.Machine
end

