-- ==== Sys2Proof/Machine/Bwt.lean ====
section
/-! DEFINITION. The Burrows-Wheeler transform (42_bwt.md): R140, R143 and the commands BWTF, BWTF.CUT (R141) and BWTI (R144). -/

namespace Sys2Proof.Machine

/-- `last[r] = s[(index[r] + n - 1) mod n]` (R140). -/
def lastColumn (s : List Byte) (index : List Nat) : List Byte :=
  index.map fun j => s.getD ((j + s.length - 1) % s.length) 0#8

/-- The rank `r` with `index[r] = 0` (R140). -/
def firstRank (index : List Nat) : Nat := index.idxOf 0

/-- What BWTF writes (R141): FIRST_OUT, DST and PERM, and for the empty input FIRST_OUT = 0 alone (R142). -/
def bwtForward (s : State) (cut : Bool) : State :=
  if s.n = 0 then s.setFirstOut 0x00000000#32
  else
    ((s.setFirstOut (indexWord (firstRank (sortPerm s.operand cut)))).storeDst
      (lastColumn s.operand (sortPerm s.operand cut))).storePerm (sortPerm s.operand cut)

/-- The array `count[0..256]` after step 1 of R143: `count[c]` is the number of positions whose value is below `c`. -/
def countBelow (last : List Byte) : List Nat :=
  (List.range 257).map fun c => last.countP fun b => decide (b.toNat < c)

/-- Step 2 of R143: `next[i] <- count[last[i]]++`, left to right. -/
def nextFrom : List Byte → (count : List Nat) → List Nat
  | [], _ => []
  | b :: rest, count => count.getD b.toNat 0 :: nextFrom rest (count.set b.toNat (count.getD b.toNat 0 + 1))

/-- The array `next[0..n-1]` of R143. -/
def nextArray (last : List Byte) : List Nat := nextFrom last (countBelow last)

/-- Step 3 of R143: `k` entries still to fill, from the back; `out` holds those filled. -/
def walk (last : List Byte) (next : List Nat) : (k : Nat) → (current : Nat) → (out : List Byte) → List Byte
  | 0, _, out => out
  | k + 1, current, out => walk last next k (next.getD current 0) (last.getD current 0#8 :: out)

/-- `BwtInverse(first, last)` (R143). -/
def bwtInverse (first : Nat) (last : List Byte) : List Byte := walk last (nextArray last) last.length first []

/-- BWTF: forward transform at full depth (R141, R142). -/
def execBwtf (s : State) : Host.Outcome State Fault Refusal := runCommand .bwtf s (bwtForward s false)

/-- BWTF.CUT: forward transform with the legacy cutoff (R141, R142). -/
def execBwtfCut (s : State) : Host.Outcome State Fault Refusal := runCommand .bwtfCut s (bwtForward s true)

/-- BWTI: DST takes the inverse of (FIRST, SRC[0..n-1]); nothing is written for n = 0 (R144, R145). -/
def execBwti (s : State) : Host.Outcome State Fault Refusal :=
  runCommand .bwti s (s.storeDst (bwtInverse s.firstIndex s.operand))

end Sys2Proof.Machine
end

