-- ==== Sys2Proof/Machine/Control.lean ====
section
/-! DEFINITION. The control operation NOP (40_control.md R106). -/

namespace Sys2Proof.Machine

/-- NOP: no operand is read or checked and no output is written; it completes (R106). -/
def execNop (s : State) : Host.Outcome State Fault Refusal := runCommand .nop s s

end Sys2Proof.Machine
end

