-- ==== Sys2Proof/Machine/Mtf.lean ====
section
/-! DEFINITION. The move-to-front codec (43_mtf.md): R160, R161, R163 and the commands MTFE (R162) and MTFD (R164). -/

namespace Sys2Proof.Machine

/-- The recency list: two tables of 256 bytes (R35). It lives within one command (R38). -/
structure Recency where
  symbolToPosition : List Byte
  positionToSymbol : List Byte
  deriving DecidableEq, Repr

/-- The identity table: entry i holds i (R160). -/
def identityTable : List Byte := (List.range 256).map (BitVec.ofNat 8)

/-- Both tables at the start of a run (R160). -/
def Recency.initial : Recency := { symbolToPosition := identityTable, positionToSymbol := identityTable }

/-- Positions 0..idx-1 shift right by one and the symbol at `idx` goes to position 0 (R161, R163). -/
def moveToFront (positionToSymbol : List Byte) (idx : Byte) : List Byte :=
  positionToSymbol.getD idx.toNat 0#8 :: positionToSymbol.eraseIdx idx.toNat

/-- The update of both tables after symbol `c` at position `idx` (R161): every symbol in front of `c` moves one position
back, and `c` takes position 0. -/
def Recency.promote (t : Recency) (c idx : Byte) : Recency :=
  { symbolToPosition := (t.symbolToPosition.map fun p => if p.toNat < idx.toNat then p + 1#8 else p).set c.toNat 0#8
    positionToSymbol := moveToFront t.positionToSymbol idx }

/-- The per-symbol loop of `MtfEncode` from given tables (R161). -/
def mtfEncodeFrom : Recency → List Byte → List Byte
  | _, [] => []
  | t, c :: rest =>
    t.symbolToPosition.getD c.toNat 0#8 :: mtfEncodeFrom (t.promote c (t.symbolToPosition.getD c.toNat 0#8)) rest

/-- `MtfEncode(b)` (R161). -/
def mtfEncode (b : List Byte) : List Byte := mtfEncodeFrom Recency.initial b

/-- The per-index loop of `MtfDecode` from a given table; it keeps `positionToSymbol` alone (R163). -/
def mtfDecodeFrom : List Byte → List Byte → List Byte
  | _, [] => []
  | table, idx :: rest => table.getD idx.toNat 0#8 :: mtfDecodeFrom (moveToFront table idx) rest

/-- `MtfDecode(x)` (R163). -/
def mtfDecode (x : List Byte) : List Byte := mtfDecodeFrom identityTable x

/-- MTFE: DST takes the indices (R162). -/
def execMtfe (s : State) : Host.Outcome State Fault Refusal :=
  runCommand .mtfe s (s.storeDst (mtfEncode s.operand))

/-- MTFD: DST takes the decoded bytes (R164). -/
def execMtfd (s : State) : Host.Outcome State Fault Refusal :=
  runCommand .mtfd s (s.storeDst (mtfDecode s.operand))

end Sys2Proof.Machine
end

