-- ==== Sys2Proof/Machine/Dispatch.lean ====
section
/-! DEFINITION. The dispatch of the completion step (40_control.md R105). -/

namespace Sys2Proof.Machine

def exec (i : Instr) (s : State) : Host.Outcome State Fault Refusal :=
  match i with
  | .nop => Sys2Proof.Machine.execNop s
  | .sort => Sys2Proof.Machine.execSort s
  | .sortCut => Sys2Proof.Machine.execSortCut s
  | .bwtf => Sys2Proof.Machine.execBwtf s
  | .bwtfCut => Sys2Proof.Machine.execBwtfCut s
  | .bwti => Sys2Proof.Machine.execBwti s
  | .mtfe => Sys2Proof.Machine.execMtfe s
  | .mtfd => Sys2Proof.Machine.execMtfd s

end Sys2Proof.Machine
end

