-- ==== Sys2Proof/Machine/Engine.lean ====
section
/-! DEFINITION. What one cycle does to the engine (R34, R104) and what each input does to the block (R20). -/

namespace Sys2Proof.Machine

/-- One cycle: a BUSY engine's remaining time goes down, and when it has run out the completion step runs the pending
command (R103, R104). An IDLE block changes nothing. -/
def State.passCycle (s : State) : Host.Outcome State Fault Refusal :=
  match s.engine with
  | .idle => .next s
  | .busy i remaining => if remaining ≤ 1 then exec i s else .next (s.enterBusy i (remaining - 1))

/-- One input (R20, R60, R230, R233). -/
def State.takeInput (s : State) (x : Input) : Host.Outcome State Fault Refusal :=
  match x with
  | .request r latency => .next (s.request r latency)
  | .cycle => s.passCycle
  | .reset => .next s.resetBlock
  | .resetDuring _ => .fault .requestDuringReset

/-- The request that writes a word to CMD (R24, R88). -/
def cmdWrite (w : Word) : Request :=
  { kind := .write w, offset := BitVec.ofNat 23 (Reg.offset .cmd), size := .four }

/-- The block as an accepted valid command leaves it, its time about to run out: the next step is its completion. -/
def State.withPending (s : State) (w : Word) (i : Instr) : State :=
  ((s.takeCommand w).enterBusy i 1).setInputs (.cycle :: s.inputs)

/-- The block about to take a CMD write in the IDLE phase. -/
def State.withCommandWrite (s : State) (w : Word) : State :=
  (s.setEngine .idle).setInputs (.request (cmdWrite w) 0 :: s.inputs)

/-- Places a command word so that the very next step runs it: a word that decodes becomes the pending command, due to
complete (R103, R104); any other word is the next CMD write, whose acceptance is all of its run (R102). -/
def State.placeWord (s : State) (w : Word) : State :=
  match decode w with
  | .instr i => s.withPending w i
  | .error _ => s.withCommandWrite w

end Sys2Proof.Machine
end

