-- ==== Sys2Proof/Machine/Step.lean ====
section
/-! DEFINITION. The step: the oldest input, or one cycle when none is scheduled (R20, R104, R112). -/

namespace Sys2Proof.Machine

/-- One step of the block. With nothing scheduled the engine still advances, so a BUSY phase ends (R112). -/
def step (s : State) : Host.Outcome State Fault Refusal :=
  match s.inputs with
  | [] => s.passCycle
  | x :: rest => (s.setInputs rest).takeInput x

/-- The state whose next step runs the opcode-table word `w` (notes/assumptions/6.md). A number that is no 32-bit word
changes nothing. -/
def State.withFetchWord (s : State) (nbits w : Nat) : State :=
  match tableWord nbits w with
  | some v => s.placeWord v
  | none => s

end Sys2Proof.Machine
end

