-- ==== Sys2Proof/Machine/Assembly.lean ====
section
/-! DEFINITION. The host-side assembly notation (30_encoding.md R88, R89): each statement is a list of bus requests. The
block itself does not know it; a program is a schedule of the requests its statements stand for. -/

namespace Sys2Proof.Machine

/-- A location of the notation (R88): a register, or a buffer window and a byte offset that is a multiple of 4. -/
inductive Place where
  | reg (r : Reg)
  | src (k : Nat)
  | dst (k : Nat)
  | perm (k : Nat)
  deriving DecidableEq, Repr

/-- A statement of the notation (R88, R89). The number in `wait` and `run` says how often the host's polling loop read
STATUS before its last read: R89 leaves it to the run. -/
inductive Stmt where
  | wr (p : Place) (v : Word)
  | rd (p : Place)
  | issue (i : Instr)
  | clrDone
  | clrOvr
  | wait (polls : Nat)
  | load (bytes : List Byte)
  | run (i : Instr) (n : Word) (polls : Nat)
  deriving DecidableEq, Repr

/-- `off(loc)` (R88). -/
def Place.offset : Place → Nat
  | .reg r => r.offset
  | .src k => srcBase + k
  | .dst k => dstBase + k
  | .perm k => permBase + k

/-- `WR loc, value` (R88). -/
def wrRequest (p : Place) (v : Word) : Request :=
  { kind := .write v, offset := BitVec.ofNat 23 p.offset, size := .four }

/-- `RD loc` (R88). -/
def rdRequest (p : Place) : Request := { kind := .read, offset := BitVec.ofNat 23 p.offset, size := .four }

/-- `LOAD SRC, bytes` from word `k` on, bytes past the end taken as zero (R89). -/
def loadFrom : (k : Nat) → List Byte → List Request
  | _, [] => []
  | k, [a] => [wrRequest (.src (4 * k)) (wordOfBytes a 0#8 0#8 0#8)]
  | k, [a, b] => [wrRequest (.src (4 * k)) (wordOfBytes a b 0#8 0#8)]
  | k, [a, b, c] => [wrRequest (.src (4 * k)) (wordOfBytes a b c 0#8)]
  | k, a :: b :: c :: d :: rest => wrRequest (.src (4 * k)) (wordOfBytes a b c d) :: loadFrom (k + 1) rest

/-- `ISSUE mnemonic` (R89). -/
def issueRequest (i : Instr) : Request := cmdWrite (encode i)

/-- `WAIT`: the reads of STATUS of the host's loop (R89). -/
def waitRequests (polls : Nat) : List Request := List.replicate (polls + 1) (rdRequest (.reg .status))

/-- The bus requests of a statement (R88, R89). -/
def Stmt.requests : Stmt → List Request
  | .wr p v => [wrRequest p v]
  | .rd p => [rdRequest p]
  | .issue i => [issueRequest i]
  | .clrDone => [wrRequest (.reg .status) 0x00000002#32]
  | .clrOvr => [wrRequest (.reg .status) 0x00000008#32]
  | .wait polls => waitRequests polls
  | .load bytes => loadFrom 0 bytes
  | .run i n polls => wrRequest (.reg .len) n :: issueRequest i :: waitRequests polls

/-- Requests as schedule slots, each with the same latency draw, with as many cycles before each one as `cycles` says (none
where it says no more). Where cycles fall between requests is open (R207), so it is an argument. -/
def slots (latency : Nat) : List Request → (cycles : List Nat) → List Input
  | [], _ => []
  | r :: rest, [] => .request r latency :: slots latency rest []
  | r :: rest, c :: cycles => List.replicate c .cycle ++ .request r latency :: slots latency rest cycles

/-- The schedule slots of a statement (R89). Where a completion falls among the reads of `WAIT` and `RUN` is what `polls` and
`cycles` together say; that they are arguments, and that nothing here demands a last read with BUSY = 0, is the model's
choice (notes/assumptions/17.md). -/
def Stmt.inputs (st : Stmt) (latency : Nat) (cycles : List Nat) : List Input := slots latency st.requests cycles

end Sys2Proof.Machine
end

