-- ==== Sys2Proof/Safety.lean ====
section
/-! DEFINITION. What claims call a good state: the invariant of the block, the clean-entry state (R235) and schedules that
keep the platform's duty (R233). -/

namespace Sys2Proof.Machine

/-- `k` steps of the block, stopping at the first fault or refusal. -/
def runSteps : Nat → State → Host.Outcome State Fault Refusal
  | 0, s => .next s
  | k + 1, s =>
    match step s with
    | .next t => runSteps k t
    | .fault f => .fault f
    | .refused r => .refused r

/-- The parameters are legal (R8): 1 <= NMAX <= 2^20 and BASE a multiple of 2^23. -/
def Params.legal (p : Params) : Bool :=
  decide (1 ≤ p.nmax) && decide (p.nmax ≤ Config.nmaxLimit) && decide (p.base % Config.windowSize = 0)

/-- A block offset that holds a buffer byte: SRC[i], DST[i] or a byte of PERM[i] with `i < NMAX` (R31 to R33). -/
def isBufferByte (nmax a : Nat) : Bool :=
  (decide (srcBase ≤ a) && decide (a < srcBase + nmax)) ||
  (decide (dstBase ≤ a) && decide (a < dstBase + nmax)) ||
  (decide (permBase ≤ a) && decide (a < permBase + 4 * nmax))

/-- `ERR = 1` exactly when `ERRCODE != 0` (R25), and no reserved code is held (R201, U15). -/
def Status.consistent (st : Status) : Bool := (st.err == (st.errcode != 0#4)) && decide (st.errcode.toNat ≤ 4)

/-- While BUSY: DONE, ERR and ERRCODE are zero (R25), at least one cycle remains (R34), CMD holds the pending command's
word (R24) and its operands passed validation (R104). -/
def State.pendingValid (s : State) : Bool :=
  match s.engine with
  | .idle => true
  | .busy i remaining =>
    decide (1 ≤ remaining) && !s.status.done && !s.status.err && decide (s.status.errcode = 0#4) &&
      decide (decode s.cmd = .instr i) && decide (operandError i s = none)

/-- The invariant of the block: legal parameters, memory in canonical form and holding buffer bytes only, STATUS
consistent (R25), and a pending command that is valid. -/
def State.inv (s : State) : Bool :=
  s.params.legal && s.mem.wf && s.mem.all (fun c => isBufferByte s.nmax c.1) && s.status.consistent && s.pendingValid

/-- A clean-entry state (R235): IDLE, STATUS = 0, LEN at most NMAX, and SRC[0..LEN-1] written since reset. -/
def State.cleanEntry (s : State) : Bool :=
  !s.busy && decide (statusWord s.busy s.status = 0#32) && decide (s.n ≤ s.nmax) &&
    (List.range s.n).all fun i => (s.mem.read? (srcBase + i)).isSome

/-- An input the platform may present: no request overlaps reset (R233). -/
def Input.isProper : Input → Bool
  | .request _ _ => true
  | .cycle => true
  | .reset => true
  | .resetDuring _ => false

/-- A block whose scheduled inputs are all proper: the platform's premise of a safe run (R233). -/
def State.properSchedule (s : State) : Bool := s.inputs.all Input.isProper

/-- The commands that write DST (R39). -/
def writesDst : Instr → Bool
  | .nop => false
  | .sort => false
  | .sortCut => false
  | .bwtf => true
  | .bwtfCut => true
  | .bwti => true
  | .mtfe => true
  | .mtfd => true

/-- The commands that write PERM (R39). -/
def writesPerm : Instr → Bool
  | .nop => false
  | .sort => true
  | .sortCut => true
  | .bwtf => true
  | .bwtfCut => true
  | .bwti => false
  | .mtfe => false
  | .mtfd => false

/-- The commands that write FIRST_OUT (R28, R39). -/
def writesFirstOut : Instr → Bool
  | .nop => false
  | .sort => false
  | .sortCut => false
  | .bwtf => true
  | .bwtfCut => true
  | .bwti => false
  | .mtfe => false
  | .mtfd => false

/-- What every command leaves as it was (R38): the parameters, CMD, LEN, FIRST, IRQ_EN, the schedule, the response and
the model's counters. STATUS, the engine, FIRST_OUT and the buffers are spoken of apart. -/
def State.kept (s t : State) : Prop :=
  t.params = s.params ∧ t.cmd = s.cmd ∧ t.len = s.len ∧ t.first = s.first ∧ t.irqEn = s.irqEn ∧
  t.inputs = s.inputs ∧ t.response = s.response ∧ t.draws = s.draws ∧ t.resets = s.resets

/-- The end of a successful command in STATUS and the engine (R104): IDLE, DONE set, ERR, ERRCODE and OVR as before. -/
def State.completedFrom (s t : State) : Prop :=
  t.engine = .idle ∧ t.status = { s.status with done := true }

/-- The two tables of a recency list are mutually inverse (R35, R161). -/
def Recency.mutuallyInverse (t : Recency) : Prop :=
  t.symbolToPosition.length = 256 ∧ t.positionToSymbol.length = 256 ∧
  (∀ p : Byte, t.symbolToPosition.getD (t.positionToSymbol.getD p.toNat 0#8).toNat 0#8 = p) ∧
  (∀ c : Byte, t.positionToSymbol.getD (t.symbolToPosition.getD c.toNat 0#8).toNat 0#8 = c)

end Sys2Proof.Machine
end

