-- ==== Sys2Proof/Certificates/Slice0/Obligations.lean ====
section
/-! DEFINITION. The statements for the provers. Every statement holds for every NMAX and BASE, since the state carries
them, and for every value of the model's own fields (the schedule, the latency draws, the counters). -/

open Sys2Proof Sys2Proof.Machine

/-! ## Encoding -/

/-- R85: the decoder is total, its checks in that rule's order, and what passes is the operation of OP with its CUT bit. -/
def Obligations.DecodeChecksInOrder : Prop :=
  ∀ w : Word,
    (6 ≤ (w.extractLsb' 0 4).toNat → decode w = .error .illegalOp) ∧
    ((w.extractLsb' 0 4).toNat < 6 → (w.extractLsb' 4 4 ≠ 0#4 ∨ w.extractLsb' 9 23 ≠ 0#23) → decode w = .error .rsvdField) ∧
    ((w.extractLsb' 0 4).toNat < 6 → w.extractLsb' 4 4 = 0#4 → w.extractLsb' 9 23 = 0#23 →
      w.getLsbD 8 = true → w.extractLsb' 0 4 ≠ 1#4 → w.extractLsb' 0 4 ≠ 2#4 → decode w = .error .rsvdField) ∧
    ((w.extractLsb' 0 4).toNat < 6 → w.extractLsb' 4 4 = 0#4 → w.extractLsb' 9 23 = 0#23 →
      (w.getLsbD 8 = true → w.extractLsb' 0 4 = 1#4 ∨ w.extractLsb' 0 4 = 2#4) →
      ∃ i, decode w = .instr i ∧ i.op.code = w.extractLsb' 0 4 ∧ i.cut = w.getLsbD 8)

/-- R85, R88: every instruction has exactly one command word, and the decoder reads it back. -/
def Obligations.EachInstructionHasOneWord : Prop :=
  (∀ (w : Word) (i : Instr), decode w = .instr i ↔ w = encode i) ∧
  ∀ i : Instr, i.wellFormed = true → decode (encode i) = .instr i

/-- R80: no bit of a command word is dropped by its fields, and no field by the word. -/
def Obligations.CommandFieldsAndWordAgree : Prop :=
  (∀ f : CmdFields, fieldsOf (wordOf f) = f) ∧ ∀ w : Word, wordOf (fieldsOf w) = w

/-- R80 to R86: a word decodes exactly when its fields are well-formed. -/
def Obligations.DecodesIffFieldsWellFormed : Prop :=
  ∀ w : Word, (∃ i, decode w = .instr i) ↔ (fieldsOf w).wellFormed = true

/-- R88: the words of the notation's table, and three words of its reserved spaces. -/
def Obligations.TableWordsDecode : Prop :=
  decode 0x00000000#32 = .instr .nop ∧ decode 0x00000001#32 = .instr .sort ∧
  decode 0x00000101#32 = .instr .sortCut ∧ decode 0x00000002#32 = .instr .bwtf ∧
  decode 0x00000102#32 = .instr .bwtfCut ∧ decode 0x00000003#32 = .instr .bwti ∧
  decode 0x00000004#32 = .instr .mtfe ∧ decode 0x00000005#32 = .instr .mtfd ∧
  decode 0x00000106#32 = .error .illegalOp ∧ decode 0x80000001#32 = .error .rsvdField ∧
  decode 0x00000104#32 = .error .rsvdField

/-! ## Acceptance, validation and failed completion -/

/-- R202: when a word and its operands break several checks, the code is that of the first that applies; when none
applies the word is valid. -/
def Obligations.FirstFailingCheckIsReported : Prop :=
  ∀ (w : Word) (s : State) (illegal reserved length firstOut : Prop),
    illegal = (6 ≤ (w.extractLsb' 0 4).toNat) →
    reserved = (w.extractLsb' 4 4 ≠ 0#4 ∨ w.extractLsb' 9 23 ≠ 0#23 ∨
      (w.getLsbD 8 = true ∧ w.extractLsb' 0 4 ≠ 1#4 ∧ w.extractLsb' 0 4 ≠ 2#4)) →
    length = (w.extractLsb' 0 4 ≠ 0#4 ∧ s.len.toNat > s.params.nmax) →
    firstOut = (w.extractLsb' 0 4 = 3#4 ∧ 1 ≤ s.len.toNat ∧ s.first.toNat ≥ s.len.toNat) →
    (illegal → validate w s = .error .illegalOp) ∧
    (¬illegal → reserved → validate w s = .error .rsvdField) ∧
    (¬illegal → ¬reserved → length → validate w s = .error .lenRange) ∧
    (¬illegal → ¬reserved → ¬length → firstOut → validate w s = .error .firstRange) ∧
    (¬illegal → ¬reserved → ¬length → ¬firstOut → ∃ i, decode w = .instr i ∧ validate w s = .instr i)

/-- R101, R103: a CMD write while IDLE is accepted: CMD takes the word, the last report is cleared, OVR stays; a valid
word makes the block BUSY. That the request carries the draw of T, so that T = latency + 1, is the model's choice
(notes/assumptions/5.md). Nothing else but the response and the request count changes. -/
def Obligations.CmdWriteWhileIdleIsAccepted : Prop :=
  ∀ (s : State) (w : Word) (latency : Nat) (rest : List Input) (i : Instr),
    s.engine = .idle → s.inputs = .request (cmdWrite w) latency :: rest → validate w s = .instr i →
    ∃ t, step s = .next t ∧ t.engine = .busy i (latency + 1) ∧ t.cmd = w ∧
      t.status = { done := false, err := false, ovr := s.status.ovr, errcode := 0#4 } ∧
      t.params = s.params ∧ t.len = s.len ∧ t.first = s.first ∧ t.firstOut = s.firstOut ∧ t.irqEn = s.irqEn ∧
      t.mem = s.mem ∧ t.resets = s.resets ∧ t.inputs = rest ∧
      t.response = some { rdata := none, err := false } ∧ t.draws = s.draws + 1

/-- R102: a word that fails validation sets ERR, ERRCODE and DONE during its CMD write, leaves the block IDLE and writes
no output; CMD holds the word (R201). -/
def Obligations.FailedCommandWritesNothing : Prop :=
  ∀ (s : State) (w : Word) (latency : Nat) (rest : List Input) (e : CmdError),
    s.engine = .idle → s.inputs = .request (cmdWrite w) latency :: rest → validate w s = .error e →
    ∃ t, step s = .next t ∧ t.engine = .idle ∧ t.cmd = w ∧
      t.status = { done := true, err := true, ovr := s.status.ovr, errcode := e.code } ∧
      (∀ a, t.byteAt a = s.byteAt a) ∧ t.firstOut = s.firstOut ∧
      t.params = s.params ∧ t.len = s.len ∧ t.first = s.first ∧ t.irqEn = s.irqEn ∧ t.resets = s.resets ∧
      t.inputs = rest ∧ t.response = some { rdata := none, err := false } ∧ t.draws = s.draws + 1

/-- R25, R201: what the host reads in STATUS after a failed command: DONE, ERR, the code in bits 11:8, and OVR as before. -/
def Obligations.FailedCommandStatusReads : Prop :=
  ∀ (s : State) (w : Word) (latency : Nat) (e : CmdError) (code : Nat),
    s.engine = .idle → validate w s = .error e →
    (e = .illegalOp → code = 1) → (e = .rsvdField → code = 2) → (e = .lenRange → code = 3) → (e = .firstRange → code = 4) →
    let t := s.accept w latency
    (t.memRead t.nextAny 0x14).toNat = 256 * code + (if s.status.ovr then 8 else 0) + 6

/-! ## The engine: cycles, completion, progress -/

/-- R103, R104: a step without a request, a scheduled cycle or nothing scheduled, runs the pending command when its time
is up, counts down before that, and leaves an IDLE block alone. Which step comes with no request is the model's schedule
(notes/assumptions/5.md). -/
def Obligations.StepRunsPendingCommand : Prop :=
  ∀ (s : State) (rest : List Input), (s.inputs = .cycle :: rest ∨ s.inputs = [] ∧ rest = []) →
    (s.engine = .idle → step s = .next (s.setInputs rest)) ∧
    (∀ i k, s.engine = .busy i k → k ≤ 1 → step s = exec i (s.setInputs rest)) ∧
    (∀ i k, s.engine = .busy i k → 1 < k → step s = .next ((s.setInputs rest).setEngine (.busy i (k - 1))))

/-- The model's placing of a word (notes/assumptions/6.md): the next step runs the instruction it decodes to, or fails
with the decoder's error. -/
def Obligations.PlacedWordRunsNext : Prop :=
  ∀ (s : State) (w : Word),
    (∀ i, decode w = .instr i → step (s.withFetchWord 32 w.toNat) = exec i ((s.takeCommand w).enterBusy i 1)) ∧
    (∀ e, decode w = .error e → ∃ t, step (s.withFetchWord 32 w.toNat) = .next t ∧ t.engine = .idle ∧ t.cmd = w ∧
      t.status = { done := true, err := true, ovr := s.status.ovr, errcode := e.code })

/-- R104: from a state the invariant allows, the completion step of the pending command, with a cycle scheduled or with
nothing scheduled (notes/assumptions/5.md), ends IDLE with DONE set, ERR and
ERRCODE still 0 and OVR unchanged: no error is detected after acceptance. -/
def Obligations.ValidCommandCompletesWithoutError : Prop :=
  ∀ (s : State) (i : Instr) (k : Nat) (rest : List Input),
    s.inv = true → s.engine = .busy i k → k ≤ 1 → (s.inputs = .cycle :: rest ∨ s.inputs = [] ∧ rest = []) →
    ∃ t, exec i (s.setInputs rest) = .next t ∧ step s = .next t ∧ t.engine = .idle ∧
      t.status = { done := true, err := false, ovr := s.status.ovr, errcode := 0#4 } ∧
      (s.setInputs rest).kept t

/-- R112: every BUSY phase ends, whatever the host does meanwhile, unless a reset ends it first: under any schedule of
cycles and requests it ends within the schedule if that holds enough cycles, else after as many more steps as cycles are
missing; and no request has changed the command or its operands. The steps are those of the model's schedule
(notes/assumptions/5.md). -/
def Obligations.BusyPhaseEnds : Prop :=
  ∀ (s : State) (i : Instr) (k : Nat), s.engine = .busy i k →
    (∀ x ∈ s.inputs, x = .cycle ∨ ∃ r latency, x = .request r latency) →
    ∃ m t, m ≤ s.inputs.length + (max k 1 - s.inputs.count .cycle) ∧
      runSteps m s = .next t ∧ t.engine = .idle ∧ t.status.done = true ∧
      t.cmd = s.cmd ∧ t.len = s.len ∧ t.first = s.first

/-- R101, R103, R104, R112: a valid word written to CMD while IDLE runs its instruction, for every latency: after the
write and T = latency + 1 cycles the block is what the instruction makes of the accepted state, and it is IDLE. The
count of steps is the model's (notes/assumptions/5.md). -/
def Obligations.AcceptedCommandRunsToItsEnd : Prop :=
  ∀ (s : State) (w : Word) (latency : Nat) (i : Instr),
    s.engine = .idle → s.inputs = [.request (cmdWrite w) latency] → validate w s = .instr i →
    ∃ a t, step s = .next a ∧ a.cmd = w ∧ a.len = s.len ∧ a.first = s.first ∧ a.mem = s.mem ∧
      exec i (a.setEngine (.busy i 1)) = .next t ∧
      runSteps (latency + 2) s = .next t ∧
      t.engine = .idle ∧ t.status = { done := true, err := false, ovr := s.status.ovr, errcode := 0#4 }

/-! ## What each command does -/

/-- R106: NOP completes whatever LEN holds, and writes no output. -/
def Obligations.NopCompletes : Prop :=
  ∀ s : State, ∃ t, exec .nop s = .next t ∧ s.completedFrom t ∧ s.kept t ∧ t.firstOut = s.firstOut ∧
    ∀ a, t.byteAt a = s.byteAt a

/-- R126: SORT and SORT.CUT write PERM[0..n-1] with the permutation of R122, and nothing else. -/
def Obligations.SortWritesPerm : Prop :=
  ∀ (s : State) (i : Instr) (cut : Bool), (i = .sort ∧ cut = false ∨ i = .sortCut ∧ cut = true) →
    s.len.toNat ≤ s.params.nmax →
    ∃ t, exec i s = .next t ∧ s.completedFrom t ∧ s.kept t ∧ t.firstOut = s.firstOut ∧
      (∀ r, r < s.len.toNat → t.permEntry r = BitVec.ofNat 32 ((sortPerm s.operand cut).getD r 0)) ∧
      ∀ a, a < 0x400000 ∨ 0x400000 + 4 * s.len.toNat ≤ a → t.byteAt a = s.byteAt a

/-- R140, R141: BWTF and BWTF.CUT write the last column to DST[0..n-1], the permutation to PERM[0..n-1] and the rank of
offset 0 to FIRST_OUT, and nothing else. -/
def Obligations.BwtfWritesTransform : Prop :=
  ∀ (s : State) (i : Instr) (cut : Bool), (i = .bwtf ∧ cut = false ∨ i = .bwtfCut ∧ cut = true) →
    s.params.legal = true → 1 ≤ s.len.toNat → s.len.toNat ≤ s.params.nmax →
    ∃ t, exec i s = .next t ∧ s.completedFrom t ∧ s.kept t ∧
      (∀ r, r < s.len.toNat → t.permEntry r = BitVec.ofNat 32 ((sortPerm s.operand cut).getD r 0)) ∧
      (∀ r, r < s.len.toNat →
        t.dstByte r = s.srcByte (((sortPerm s.operand cut).getD r 0 + s.len.toNat - 1) % s.len.toNat)) ∧
      t.firstOut.toNat < s.len.toNat ∧ t.permEntry t.firstOut.toNat = 0#32 ∧
      ∀ a, (a < 0x200000 ∨ 0x200000 + s.len.toNat ≤ a) → (a < 0x400000 ∨ 0x400000 + 4 * s.len.toNat ≤ a) →
        t.byteAt a = s.byteAt a

/-- R142: BWTF on the empty input sets FIRST_OUT to 0 and writes no DST or PERM entry. -/
def Obligations.EmptyForwardSetsFirstOutOnly : Prop :=
  ∀ (s : State) (i : Instr), (i = .bwtf ∨ i = .bwtfCut) → s.len = 0#32 →
    ∃ t, exec i s = .next t ∧ s.completedFrom t ∧ s.kept t ∧ t.firstOut = 0#32 ∧ ∀ a, t.byteAt a = s.byteAt a

/-- R144: BWTI writes DST[0..n-1] with the inverse of (FIRST, SRC[0..n-1]) by R143, and nothing else. -/
def Obligations.BwtiWritesInverse : Prop :=
  ∀ s : State, 1 ≤ s.len.toNat → s.len.toNat ≤ s.params.nmax → s.first.toNat < s.len.toNat →
    ∃ t, exec .bwti s = .next t ∧ s.completedFrom t ∧ s.kept t ∧ t.firstOut = s.firstOut ∧
      (∀ k, k < s.len.toNat → t.dstByte k = (bwtInverse s.first.toNat s.operand).getD k 0#8) ∧
      ∀ a, a < 0x200000 ∨ 0x200000 + s.len.toNat ≤ a → t.byteAt a = s.byteAt a

/-- R145: BWTI with LEN = 0 succeeds for every FIRST and writes nothing. -/
def Obligations.EmptyInverseWritesNothing : Prop :=
  ∀ s : State, s.len = 0#32 →
    ∃ t, exec .bwti s = .next t ∧ s.completedFrom t ∧ s.kept t ∧ t.firstOut = s.firstOut ∧ ∀ a, t.byteAt a = s.byteAt a

/-- R162, R164: MTFE writes the indices and MTFD the decoded bytes to DST[0..n-1], and nothing else. -/
def Obligations.MtfWritesDst : Prop :=
  ∀ (s : State) (i : Instr) (out : List Byte),
    (i = .mtfe ∧ out = mtfEncode s.operand ∨ i = .mtfd ∧ out = mtfDecode s.operand) →
    s.len.toNat ≤ s.params.nmax →
    ∃ t, exec i s = .next t ∧ s.completedFrom t ∧ s.kept t ∧ t.firstOut = s.firstOut ∧
      (∀ k, k < s.len.toNat → t.dstByte k = out.getD k 0#8) ∧
      ∀ a, a < 0x200000 ∨ 0x200000 + s.len.toNat ≤ a → t.byteAt a = s.byteAt a

/-- R101, R126, R141, R144, R162, R164: where a command's operands fail: LEN above NMAX for every command but NOP, and
FIRST outside [0, LEN-1] for BWTI on non-empty input. It ends with the error, and no output is written. The spec makes
these checks at acceptance alone; that a meaning makes them again is the model's choice (notes/assumptions/10.md). -/
def Obligations.OperandsOutOfRangeFail : Prop :=
  ∀ (s : State) (i : Instr) (code : BitVec 4),
    (s.params.nmax < s.len.toNat ∧ i ≠ .nop ∧ code = 3#4 ∨
      i = .bwti ∧ 1 ≤ s.len.toNat ∧ s.len.toNat ≤ s.params.nmax ∧ s.len.toNat ≤ s.first.toNat ∧ code = 4#4) →
    ∃ t, exec i s = .next t ∧ t.engine = .idle ∧
      t.status = { done := true, err := true, ovr := s.status.ovr, errcode := code } ∧
      s.kept t ∧ t.firstOut = s.firstOut ∧ ∀ a, t.byteAt a = s.byteAt a

/-! ## The suffix sort -/

/-- R122: the partition of a range about its first entry's character leaves three zones, reorders that range and touches
no other entry. -/
def Obligations.PartitionMakesThreeZones : Prop :=
  ∀ (s : List Byte) (lo hiEnd d v : Nat) (index : List Nat) (p : Partition),
    lo < hiEnd → hiEnd ≤ index.length → v = charAt s (index.getD lo 0) d → p = partitionAt s lo hiEnd d index →
    lo ≤ p.lt ∧ p.lt < p.gtEnd ∧ p.gtEnd ≤ hiEnd ∧ p.index.Perm index ∧
    (∀ k, k < lo ∨ hiEnd ≤ k → p.index.getD k 0 = index.getD k 0) ∧
    (∀ k, lo ≤ k → k < p.lt → charAt s (p.index.getD k 0) d < v) ∧
    (∀ k, p.lt ≤ k → k < p.gtEnd → charAt s (p.index.getD k 0) d = v) ∧
    (∀ k, p.gtEnd ≤ k → k < hiEnd → v < charAt s (p.index.getD k 0) d)

/-- R122, R123: the sort ends within the model's bound on its recursion (notes/assumptions/11.md): a larger bound changes
nothing. -/
def Obligations.SortBoundIsEnough : Prop :=
  ∀ (s : List Byte) (cut : Bool) (extra : Nat),
    sort3 s (lim s.length cut) (sortFuel s.length + extra) 0 s.length 0 (List.range s.length) = sortPerm s cut

/-- R123: the result of the sort is a permutation of 0..n-1, for either cut. -/
def Obligations.SortGivesPermutation : Prop :=
  ∀ (s : List Byte) (cut : Bool), (sortPerm s cut).Perm (List.range s.length)

/-- R124: with cut = 0 the rotations come out in lexicographic order. -/
def Obligations.FullSortIsSorted : Prop :=
  ∀ (s : List Byte) (r1 r2 : Nat), r1 < r2 → r2 < s.length →
    rot s ((sortPerm s false).getD r1 0) ≤ rot s ((sortPerm s false).getD r2 0)

/-- R121, R127: with cut = 1 the rotations are in order by their first n div 2 characters, and "ABA" shows that they need
not be in order by all of them. -/
def Obligations.CutSortIsSortedByHalf : Prop :=
  (∀ (s : List Byte) (r1 r2 : Nat), r1 < r2 → r2 < s.length →
    (rot s ((sortPerm s true).getD r1 0)).take (s.length / 2) ≤
      (rot s ((sortPerm s true).getD r2 0)).take (s.length / 2)) ∧
  sortPerm [65#8, 66#8, 65#8] true = [0, 2, 1] ∧ sortPerm [65#8, 66#8, 65#8] false = [2, 0, 1]

/-! ## The Burrows-Wheeler transform -/

/-- R148: the last column is the same for every order of identical rotations. -/
def Obligations.LastColumnIgnoresTies : Prop :=
  ∀ (s : List Byte) (index : List Nat), index.Perm (List.range s.length) →
    (index.map (rot s)).Pairwise (fun a b => a ≤ b) → lastColumn s index = lastColumn s (sortPerm s false)

/-- R143: `next` is a permutation of 0..n-1. -/
def Obligations.NextIsPermutation : Prop :=
  ∀ last : List Byte, (nextArray last).Perm (List.range last.length)

/-- R146: the inverse is total: for any bytes and any legal first it gives n bytes, each a byte of the last column, the
final one the byte at first. -/
def Obligations.InverseIsTotal : Prop :=
  ∀ (last : List Byte) (first : Nat), first < last.length →
    (bwtInverse first last).length = last.length ∧ (∀ b ∈ bwtInverse first last, b ∈ last) ∧
    (bwtInverse first last).getD (last.length - 1) 0#8 = last.getD first 0#8

/-- R147: with cut = 0 the inverse of the forward transform is the input. -/
def Obligations.InverseOfForwardIsInput : Prop :=
  ∀ s : List Byte, s ≠ [] →
    bwtInverse (firstRank (sortPerm s false)) (lastColumn s (sortPerm s false)) = s

/-- R147: the round trip on the block: BWTF, the host's copy of DST to SRC and of FIRST_OUT to FIRST, then BWTI, gives
back the input; with cut = 1 it need not ("ABA"). -/
def Obligations.BwtRoundTripOnTheBlock : Prop :=
  (∀ s : State, s.params.legal = true → s.len.toNat ≤ s.params.nmax →
    ∃ t, exec .bwtf s = .next t ∧
      ∀ u : State, u.params = s.params → u.len = s.len → u.first = t.firstOut →
        (∀ k, k < s.len.toNat → u.srcByte k = t.dstByte k) →
        ∃ v, exec .bwti u = .next v ∧ u.completedFrom v ∧
          ∀ k, k < s.len.toNat → v.dstByte k = s.srcByte k) ∧
  bwtInverse (firstRank (sortPerm [65#8, 66#8, 65#8] true)) (lastColumn [65#8, 66#8, 65#8] (sortPerm [65#8, 66#8, 65#8] true)) =
    [65#8, 65#8, 65#8]

/-! ## The move-to-front codec -/

/-- R35, R160, R161: the tables start mutually inverse, and each symbol of an encode keeps them so. -/
def Obligations.RecencyTablesStayInverse : Prop :=
  Recency.initial.mutuallyInverse ∧
  ∀ (t : Recency) (c : Byte), t.mutuallyInverse →
    (t.promote c (t.symbolToPosition.getD c.toNat 0#8)).mutuallyInverse

/-- R165: decoding an encoding gives back the bytes, encoding a decoding gives back the indices. -/
def Obligations.MtfRoundTrips : Prop :=
  (∀ b : List Byte, mtfDecode (mtfEncode b) = b) ∧ (∀ x : List Byte, mtfEncode (mtfDecode x) = x)

/-- R165: the round trip on the block: MTFE, the host's copy of DST to SRC, then MTFD, gives back the input; and the
other way round. -/
def Obligations.MtfRoundTripOnTheBlock : Prop :=
  ∀ (s : State) (i j : Instr), (i = .mtfe ∧ j = .mtfd ∨ i = .mtfd ∧ j = .mtfe) → s.len.toNat ≤ s.params.nmax →
    ∃ t, exec i s = .next t ∧
      ∀ u : State, u.params = s.params → u.len = s.len → (∀ k, k < s.len.toNat → u.srcByte k = t.dstByte k) →
        ∃ v, exec j u = .next v ∧ u.completedFrom v ∧ ∀ k, k < s.len.toNat → v.dstByte k = s.srcByte k

/-- R166: a symbol equal to the one before it encodes as 0. -/
def Obligations.RunsEncodeAsZero : Prop :=
  ∀ (b : List Byte) (k : Nat), k + 1 < b.length → b.getD (k + 1) 0#8 = b.getD k 0#8 →
    (mtfEncode b).getD (k + 1) 0#8 = 0#8

/-- R162: the first occurrence of a byte encodes as the byte plus the number of distinct greater bytes seen before it. -/
def Obligations.FirstOccurrenceEncodesAsByteAndGreater : Prop :=
  ∀ (seen : List Byte) (c : Byte) (rest : List Byte), c ∉ seen →
    ((mtfEncode (seen ++ c :: rest)).getD seen.length 0#8).toNat =
      c.toNat + (seen.dedup.filter fun b => decide (c.toNat < b.toNat)).length

/-! ## The bus -/

/-- R206: a request of the wrong size or alignment gets `err = 1` and changes nothing, in either phase; a read of it
answers any value, in the model a free value of the read (notes/assumptions/4.md). -/
def Obligations.BusErrorChangesNothing : Prop :=
  ∀ (s : State) (r : Request) (latency : Nat) (rest : List Input),
    s.inputs = .request r latency :: rest → (r.size ≠ .four ∨ r.offset.toNat % 4 ≠ 0) →
    (r.kind = .read → step s = .next (((s.setInputs rest).setDraws (s.draws + 1)).setResponse
      (some { rdata := some (Config.anyRead s.draws), err := true }))) ∧
    (∀ v, r.kind = .write v → step s = .next (((s.setInputs rest).setDraws (s.draws + 1)).setResponse
      (some { rdata := none, err := true })))

/-- R64, R241: what an aligned read answers, by offset, in either phase; it changes nothing but the response and the
request count. The `any` of a read while BUSY is in the model a free value of the read, and the four DST lanes are lanes
of one such value (notes/assumptions/4.md). -/
def Obligations.AlignedReadAnswers : Prop :=
  ∀ (s : State) (r : Request) (latency : Nat) (rest : List Input) (off : Nat),
    s.inputs = .request r latency :: rest → r.kind = .read → r.size = .four → off = r.offset.toNat → off % 4 = 0 →
    ∃ v : Word,
      step s = .next (((s.setInputs rest).setDraws (s.draws + 1)).setResponse (some { rdata := some v, err := false })) ∧
      (0x100000 ≤ off → off < 0x200000 → ∀ j, j < 4 → v.extractLsb' (8 * j) 8 =
        if off - 0x100000 + j < s.params.nmax then s.srcByte (off - 0x100000 + j) else 0#8) ∧
      (0x200000 ≤ off → off < 0x300000 → ∀ j, j < 4 → v.extractLsb' (8 * j) 8 =
        if s.params.nmax ≤ off - 0x200000 + j then 0#8
        else if s.busy = true then (Config.anyRead s.draws).extractLsb' (8 * j) 8 else s.dstByte (off - 0x200000 + j)) ∧
      (0x400000 ≤ off → v =
        if s.params.nmax ≤ (off - 0x400000) / 4 then 0#32
        else if s.busy = true then Config.anyRead s.draws else s.permEntry ((off - 0x400000) / 4)) ∧
      (off = 0x00 → v = 0x4257544D#32) ∧ (off = 0x04 → v = 0x00000001#32) ∧
      (off = 0x08 → v = BitVec.ofNat 32 s.params.nmax) ∧ (off = 0x10 → v = s.cmd) ∧
      (off = 0x14 → v = statusWord s.busy s.status) ∧ (off = 0x18 → v = s.len) ∧ (off = 0x1C → v = s.first) ∧
      (off = 0x20 → v = if s.busy = true then Config.anyRead s.draws else s.firstOut) ∧
      (off = 0x24 → v = s.irqEn.setWidth 32) ∧
      (off = 0x0C ∨ 0x28 ≤ off ∧ off < 0x100000 ∨ 0x300000 ≤ off ∧ off < 0x400000 → v = 0#32)

/-- R25: the fields of the STATUS word at their bits. -/
def Obligations.StatusWordFields : Prop :=
  ∀ s : State,
    let w := s.memRead s.nextAny 0x14
    w.getLsbD 0 = s.busy ∧ w.getLsbD 1 = s.status.done ∧ w.getLsbD 2 = s.status.err ∧ w.getLsbD 3 = s.status.ovr ∧
    w.extractLsb' 4 4 = 0#4 ∧ w.extractLsb' 8 4 = s.status.errcode ∧ w.extractLsb' 12 20 = 0#20

/-- R65: an aligned write to the SRC or DST window while IDLE stores the byte lanes below NMAX, little-endian (R63), and
changes no other byte and no register. -/
def Obligations.BufferWriteStoresLanes : Prop :=
  ∀ (s : State) (r : Request) (v : Word) (latency : Nat) (rest : List Input) (off base : Nat),
    s.inputs = .request r latency :: rest → s.engine = .idle → r.kind = .write v → r.size = .four →
    off = r.offset.toNat → off % 4 = 0 → (base = 0x100000 ∨ base = 0x200000) → base ≤ off → off < base + 0x100000 →
    ∃ t, step s = .next t ∧
      t = ((((s.setInputs rest).setMem t.mem).setDraws (s.draws + 1)).setResponse (some { rdata := none, err := false })) ∧
      (∀ j, j < 4 → off - base + j < s.params.nmax → t.byteAt (off + j) = v.extractLsb' (8 * j) 8) ∧
      (∀ a, (a < off ∨ off + 4 ≤ a ∨ base + s.params.nmax ≤ a) → t.byteAt a = s.byteAt a)

/-- R65: an aligned write to the PERM window while IDLE stores entry i if i < NMAX, and nothing otherwise. -/
def Obligations.PermWriteStoresEntry : Prop :=
  ∀ (s : State) (r : Request) (v : Word) (latency : Nat) (rest : List Input) (i : Nat),
    s.inputs = .request r latency :: rest → s.engine = .idle → r.kind = .write v → r.size = .four →
    r.offset.toNat = 0x400000 + 4 * i →
    ∃ t, step s = .next t ∧
      t = ((((s.setInputs rest).setMem t.mem).setDraws (s.draws + 1)).setResponse (some { rdata := none, err := false })) ∧
      (i < s.params.nmax → t.permEntry i = v) ∧ (s.params.nmax ≤ i → t.mem = s.mem) ∧
      (∀ a, a < 0x400000 + 4 * i ∨ 0x400000 + 4 * i + 4 ≤ a → t.byteAt a = s.byteAt a)

/-- R26, R27, R29: LEN and FIRST store every value written while IDLE, IRQ_EN stores two bits in either phase, and the
next read gives it back. -/
def Obligations.RegistersReadBackWhatWasWritten : Prop :=
  ∀ (s : State) (v : Word) (reg : Reg) (latency : Nat),
    (s.engine = .idle ∧ (reg = .len ∨ reg = .first) ∨ reg = .irqEn) →
    s.inputs = [.request (wrRequest (.reg reg) v) latency, .request (rdRequest (.reg reg)) latency] →
    ∃ t, runSteps 2 s = .next t ∧
      t.response = some { rdata := some (if reg = .irqEn then v &&& 3#32 else v), err := false } ∧
      t.status = s.status ∧ t.engine = s.engine ∧ t.cmd = s.cmd ∧ t.firstOut = s.firstOut ∧ t.mem = s.mem ∧
      t.params = s.params ∧
      (reg ≠ .len → t.len = s.len) ∧ (reg ≠ .first → t.first = s.first) ∧ (reg ≠ .irqEn → t.irqEn = s.irqEn)

/-- R23, R28, R30, R65: a write to a read-only register or to a reserved offset is ignored in either phase and sets no OVR.
A window word wholly at or beyond NMAX is a reserved offset (R30, D31); that R65's list of windows does not count against
it is the model's deduction (notes/assumptions/8.md). -/
def Obligations.WritesToReadOnlyAndReservedAreIgnored : Prop :=
  ∀ (s : State) (r : Request) (v : Word) (latency : Nat) (rest : List Input) (off : Nat),
    s.inputs = .request r latency :: rest → r.kind = .write v → r.size = .four → off = r.offset.toNat → off % 4 = 0 →
    (off < 0x10 ∨ off = 0x20 ∨ 0x28 ≤ off ∧ off < 0x100000 ∨ 0x300000 ≤ off ∧ off < 0x400000 ∨
      0x100000 + s.params.nmax ≤ off ∧ off < 0x200000 ∨ 0x200000 + s.params.nmax ≤ off ∧ off < 0x300000 ∨
      0x400000 + 4 * s.params.nmax ≤ off) →
    step s = .next (((s.setInputs rest).setDraws (s.draws + 1)).setResponse (some { rdata := none, err := false }))

/-- R240, R65: while BUSY an aligned write to CMD, LEN, FIRST or a buffer is ignored and sets OVR; a write to STATUS or
IRQ_EN takes effect in either phase. A write to a window word wholly at or beyond NMAX is ignored and sets no OVR (R30,
D31); that D31 decides against the list of R65 there is the model's deduction (notes/assumptions/8.md). -/
def Obligations.BusyDropsProtectedWrites : Prop :=
  ∀ (s : State) (r : Request) (v : Word) (latency : Nat) (rest : List Input) (off : Nat),
    s.inputs = .request r latency :: rest → r.kind = .write v → r.size = .four → off = r.offset.toNat → off % 4 = 0 →
    ∃ u, step s = .next (((u.setInputs rest).setDraws (s.draws + 1)).setResponse (some { rdata := none, err := false })) ∧
      (s.busy = true →
        (off = 0x10 ∨ off = 0x18 ∨ off = 0x1C ∨
          0x100000 ≤ off ∧ off < 0x200000 ∧ off < 0x100000 + s.params.nmax ∨
          0x200000 ≤ off ∧ off < 0x300000 ∧ off < 0x200000 + s.params.nmax ∨
          0x400000 ≤ off ∧ off < 0x400000 + 4 * s.params.nmax) →
        u = s.setStatus { s.status with ovr := true }) ∧
      (s.busy = true →
        (0x100000 ≤ off ∧ off < 0x200000 ∧ 0x100000 + s.params.nmax ≤ off ∨
          0x200000 ≤ off ∧ off < 0x300000 ∧ 0x200000 + s.params.nmax ≤ off ∨
          0x400000 + 4 * s.params.nmax ≤ off) →
        u = s) ∧
      (off = 0x14 → u = s.setStatus { s.status with done := s.status.done && !v.getLsbD 1, ovr := s.status.ovr && !v.getLsbD 3 }) ∧
      (off = 0x24 → u = s.setIrqEn (v.extractLsb' 0 2))

/-- R108: a STATUS write clears DONE where bit 1 is set and OVR where bit 3 is set, in either phase, and nothing else; of
the wrong size it is a bus error. -/
def Obligations.StatusWriteClearsDoneAndOvr : Prop :=
  ∀ (s : State) (r : Request) (v : Word) (latency : Nat) (rest : List Input),
    s.inputs = .request r latency :: rest → r.kind = .write v → r.offset = 0x14#23 →
    (r.size = .four → step s = .next ((((s.setInputs rest).setStatus
        { done := if v.getLsbD 1 = true then false else s.status.done, err := s.status.err,
          ovr := if v.getLsbD 3 = true then false else s.status.ovr, errcode := s.status.errcode }).setDraws
        (s.draws + 1)).setResponse (some { rdata := none, err := false }))) ∧
    (r.size ≠ .four → step s = .next (((s.setInputs rest).setDraws (s.draws + 1)).setResponse
        (some { rdata := none, err := true })))

/-- R61: a host access in BASE .. BASE + 0x7FFFFF reaches the block at offset A - BASE, and the block never sees another. -/
def Obligations.PlatformRoutesTheWindow : Prop :=
  ∀ (s : State) (kind : Kind) (a : Nat) (size : Size) (latency : Nat),
    (s.params.base ≤ a ∧ a ≤ s.params.base + 0x7FFFFF → ∃ off : Offset, off.toNat = a - s.params.base ∧
      s.hostAccess kind a size latency =
        s.setInputs (s.inputs ++ [.request { kind := kind, offset := off, size := size } latency])) ∧
    (a < s.params.base ∨ s.params.base + 0x7FFFFF < a → s.hostAccess kind a size latency = s)

/-- R89, R63, R235: LOAD SRC of any bytes that fit, then the LEN write, makes them the operand of the next command,
whatever cycles pass between the requests (notes/assumptions/17.md); from an IDLE block with STATUS = 0 that is a
clean-entry state. -/
def Obligations.LoadMakesTheOperand : Prop :=
  ∀ (s : State) (bytes : List Byte) (latency : Nat) (cycles cycles' : List Nat),
    s.engine = .idle → s.params.legal = true → bytes.length ≤ s.params.nmax →
    s.inputs = (Stmt.load bytes).inputs latency cycles ++
      (Stmt.wr (.reg .len) (BitVec.ofNat 32 bytes.length)).inputs latency cycles' →
    ∃ t, runSteps s.inputs.length s = .next t ∧ t.inputs = [] ∧ t.engine = .idle ∧
      t.operand = bytes ∧ t.status = s.status ∧ t.first = s.first ∧ t.firstOut = s.firstOut ∧ t.cmd = s.cmd ∧
      (statusWord false s.status = 0#32 → t.cleanEntry = true)

/-! ## The interrupt -/

/-- R211: when the interrupt line rises and falls, and that it is never lost: a failed validation and a completion raise
it if DONE_IE is set, an acceptance leaves only the OVR source, and no step lowers it but a reset or an aligned write to
CMD, STATUS or IRQ_EN. -/
def Obligations.InterruptRisesAndIsNeverLost : Prop :=
  ∀ (s t : State), step s = .next t →
    (∀ w latency rest e, s.engine = .idle → s.inputs = .request (cmdWrite w) latency :: rest →
      validate w s = .error e → s.irqEn.getLsbD 0 = true → t.irq = true) ∧
    (∀ w latency rest i, s.engine = .idle → s.inputs = .request (cmdWrite w) latency :: rest →
      validate w s = .instr i → t.irq = (s.status.ovr && s.irqEn.getLsbD 1)) ∧
    (∀ i k rest, s.engine = .busy i k → k ≤ 1 → (s.inputs = .cycle :: rest ∨ s.inputs = []) → s.irqEn.getLsbD 0 = true → t.irq = true) ∧
    (s.irq = true → t.irq = false →
      (∃ rest, s.inputs = .reset :: rest) ∨
      ∃ r latency rest v, s.inputs = .request r latency :: rest ∧ r.kind = .write v ∧ r.isAligned = true ∧
        (r.offset = 0x10#23 ∨ r.offset = 0x14#23 ∨ r.offset = 0x24#23))

/-! ## Reset, invariants and rules of the whole machine -/

/-- R230, R231: reset in either phase abandons the command, sets every register, lowers the interrupt and leaves every
buffer byte unspecified, in the model a free value (notes/assumptions/3.md); the parameters are unaffected. -/
def Obligations.ResetSetsEverything : Prop :=
  ∀ (s : State) (rest : List Input), s.inputs = .reset :: rest →
    ∃ t, step s = .next t ∧ t.engine = .idle ∧ t.cmd = 0#32 ∧ statusWord t.busy t.status = 0#32 ∧ t.len = 0#32 ∧
      t.first = 0#32 ∧ t.firstOut = 0#32 ∧ t.irqEn = 0#2 ∧ t.irq = false ∧ t.params = s.params ∧
      (∀ a, t.byteAt a = Config.unspecifiedByte (s.resets + 1) a) ∧ t.inputs = rest

/-- The invariant of the block holds right after reset. -/
def Obligations.InvariantHoldsAtReset : Prop := State.reset.inv = true

/-- Every step keeps the invariant of the block (R8, R25, R31 to R34, R201): legal parameters, buffer storage in its
canonical form and within NMAX, ERR exactly with a code of R201, and while BUSY no report, time left and a valid pending
command that CMD still names. -/
def Obligations.EveryStepKeepsTheInvariant : Prop :=
  ∀ s t : State, s.inv = true → step s = .next t → t.inv = true

/-- R25, V-HAZ-8: while BUSY the host reads 0x1 or 0x9 in STATUS. -/
def Obligations.BusyStatusReadsOneOrNine : Prop :=
  ∀ s : State, s.inv = true → s.busy = true →
    s.memRead s.nextAny 0x14 = if s.status.ovr = true then 0x00000009#32 else 0x00000001#32

/-- R200: no instruction and no other request makes a step fault, and a step never refuses. That it faults on a request
that overlaps reset is the model's choice, since R233 leaves its response and effect unspecified
(notes/assumptions/12.md). -/
def Obligations.StepFaultsOnlyOnRequestDuringReset : Prop :=
  ∀ s : State,
    (∀ r, step s ≠ .refused r) ∧
    ((∃ f, step s = .fault f) ↔ ∃ r rest, s.inputs = .resetDuring r :: rest)

/-- R34, R76, R240: while BUSY no step but a reset changes LEN, FIRST, CMD or SRC, and the pending command stays until
the block is IDLE. -/
def Obligations.OperandsAreFrozenWhileBusy : Prop :=
  ∀ (s t : State) (i : Instr) (k : Nat), s.engine = .busy i k → step s = .next t →
    (∃ rest, s.inputs = .reset :: rest) ∨
    (t.len = s.len ∧ t.first = s.first ∧ t.cmd = s.cmd ∧ t.params = s.params ∧
      (∀ a, 0x100000 ≤ a → a < 0x200000 → t.byteAt a = s.byteAt a) ∧
      (t.engine = .idle ∨ ∃ k', t.engine = .busy i k' ∧ k' ≤ k))

/-- R28: FIRST_OUT changes only at the completion of a BWTF, which comes with a cycle when no time is left, or at reset. -/
def Obligations.OnlyBwtfWritesFirstOut : Prop :=
  ∀ s t : State, step s = .next t → t.firstOut ≠ s.firstOut →
    (∃ rest, s.inputs = .reset :: rest) ∨
    ∃ i k, s.engine = .busy i k ∧ k ≤ 1 ∧ (i = .bwtf ∨ i = .bwtfCut) ∧ (s.inputs = [] ∨ ∃ rest, s.inputs = .cycle :: rest)

/-- R38, R39: no command changes SRC, LEN or FIRST, an entry of DST or PERM at an index >= n, or an output its rule does
not name. -/
def Obligations.CommandsChangeOnlyTheirOutputs : Prop :=
  ∀ (s t : State) (i : Instr), s.params.legal = true → exec i s = .next t →
    s.kept t ∧ t.engine = .idle ∧
    (∀ k, k < s.params.nmax → t.srcByte k = s.srcByte k) ∧
    (∀ k, k < s.params.nmax → (s.len.toNat ≤ k ∨ writesDst i = false) → t.dstByte k = s.dstByte k) ∧
    (∀ k, k < s.params.nmax → (s.len.toNat ≤ k ∨ writesPerm i = false) → t.permEntry k = s.permEntry k) ∧
    (writesFirstOut i = false → t.firstOut = s.firstOut)

/-- R38, R245: the result of a command depends only on its opcode and CUT bit, on LEN, FIRST and SRC[0..LEN-1] (and on the
fixed NMAX), on nothing left by an earlier command. -/
def Obligations.ResultsDependOnlyOnOperands : Prop :=
  ∀ (i : Instr) (s u : State), s.params = u.params → s.params.legal = true → s.len = u.len → s.first = u.first →
    (∀ k, k < s.len.toNat → s.srcByte k = u.srcByte k) →
    ∃ t v, exec i s = .next t ∧ exec i u = .next v ∧ (operandError i s = operandError i u) ∧
      (operandError i s = none →
        (writesDst i = true → ∀ k, k < s.len.toNat → t.dstByte k = v.dstByte k) ∧
        (writesPerm i = true → ∀ k, k < s.len.toNat → t.permEntry k = v.permEntry k) ∧
        (writesFirstOut i = true → t.firstOut = v.firstOut))

/-- R207: a host write and a completion step that are both possible may come in either order, and both orders are runs of
the block under the model's schedule (notes/assumptions/5.md). First the LEN write of program P5 (R240, R65): dropped with
OVR set, or stored. Then R207's own example, a CMD write: dropped with OVR set, or accepted as a new command, which makes
the block BUSY if it is valid and fails at once if not; its T is the latency draw's. The running command's results are the
same in both orders. -/
def Obligations.WriteAndCompletionComeInEitherOrder : Prop :=
  ∀ (s : State) (i : Instr) (k latency : Nat) (v : Word),
    s.engine = .busy i k → k ≤ 1 → operandError i s = none →
    (∃ t u,
      runSteps 2 (s.setInputs [.request (wrRequest (.reg .len) v) latency, .cycle]) = .next t ∧
      runSteps 2 (s.setInputs [.cycle, .request (wrRequest (.reg .len) v) latency]) = .next u ∧
      t.len = s.len ∧ t.status.ovr = true ∧ u.len = v ∧ u.status.ovr = s.status.ovr ∧
      t.engine = .idle ∧ u.engine = .idle ∧ t.status.done = true ∧ u.status.done = true ∧
      (∀ a, t.byteAt a = u.byteAt a) ∧ t.firstOut = u.firstOut) ∧
    ∃ t u,
      runSteps 2 (s.setInputs [.request (cmdWrite v) latency, .cycle]) = .next t ∧
      runSteps 2 (s.setInputs [.cycle, .request (cmdWrite v) latency]) = .next u ∧
      t.cmd = s.cmd ∧ t.engine = .idle ∧ t.status.done = true ∧ t.status.ovr = true ∧
      u.cmd = v ∧ u.status.ovr = s.status.ovr ∧
      (∀ j, validate v s = .instr j → u.engine = .busy j (latency + 1) ∧
        u.status = { done := false, err := false, ovr := s.status.ovr, errcode := 0#4 }) ∧
      (∀ e, validate v s = .error e → u.engine = .idle ∧
        u.status = { done := true, err := true, ovr := s.status.ovr, errcode := e.code }) ∧
      (∀ a, t.byteAt a = u.byteAt a) ∧ t.firstOut = u.firstOut
end

