-- ==== Sys2Proof/Laws/Algorithms.lean ====
section
/-! SUPPORT. The lengths of what the operations compute, and that a swap only reorders. -/

namespace Sys2Proof.Machine

@[simp] theorem length_swapEntries (l : List Nat) (i j : Nat) : (swapEntries l i j).length = l.length := by
  simp [swapEntries]

/-- A swap inside the array is a reordering (R123). -/
theorem swapEntries_perm (l : List Nat) (i j : Nat) (hi : i < l.length) (hj : j < l.length) :
    (swapEntries l i j).Perm l := by
  have h : swapEntries l i j = (l.set i l[j]).set j l[i] := by simp [swapEntries, hi, hj]
  rw [h]
  exact List.set_set_perm hi hj

@[simp] theorem length_scan (s : List Byte) (d v left lt i : Nat) (l : List Nat) :
    (scan s d v left lt i l).index.length = l.length := by
  induction left generalizing lt i l with
  | zero => rfl
  | succ k ih => unfold scan; split <;> [skip; split] <;> simp [ih]

@[simp] theorem length_sort3 (s : List Byte) (L : Int) (fuel lo hiEnd d : Nat) (l : List Nat) :
    (sort3 s L fuel lo hiEnd d l).length = l.length := by
  induction fuel generalizing lo hiEnd d l with
  | zero => rfl
  | succ k ih => unfold sort3; split <;> simp [ih, partitionAt]

@[simp] theorem length_sortPerm (s : List Byte) (cut : Bool) : (sortPerm s cut).length = s.length := by
  simp [sortPerm]

@[simp] theorem length_lastColumn (s : List Byte) (index : List Nat) :
    (lastColumn s index).length = index.length := by simp [lastColumn]

@[simp] theorem length_walk (last : List Byte) (next : List Nat) (k cur : Nat) (out : List Byte) :
    (walk last next k cur out).length = k + out.length := by
  induction k generalizing cur out with
  | zero => simp [walk]
  | succ k ih => simp [walk, ih]; omega

@[simp] theorem length_bwtInverse (first : Nat) (last : List Byte) : (bwtInverse first last).length = last.length := by
  simp [bwtInverse]

@[simp] theorem length_mtfEncodeFrom (t : Recency) (b : List Byte) : (mtfEncodeFrom t b).length = b.length := by
  induction b generalizing t with
  | nil => rfl
  | cons c rest ih => simp [mtfEncodeFrom, ih]

@[simp] theorem length_mtfDecodeFrom (table x : List Byte) : (mtfDecodeFrom table x).length = x.length := by
  induction x generalizing table with
  | nil => rfl
  | cons c rest ih => simp [mtfDecodeFrom, ih]

@[simp] theorem length_mtfEncode (b : List Byte) : (mtfEncode b).length = b.length := by simp [mtfEncode]

@[simp] theorem length_mtfDecode (x : List Byte) : (mtfDecode x).length = x.length := by simp [mtfDecode]

@[simp] theorem length_operand (s : State) : s.operand.length = s.n := by simp [State.operand]

end Sys2Proof.Machine
end

