-- ==== Sys2Proof/Laws/Memory.lean ====
section
/-! SUPPORT. The laws of buffer storage: reading after a write, and that every write keeps the canonical form. -/

namespace Sys2Proof.Machine

/-- Reading after a write of one byte: the byte at its offset, every other offset as before. -/
theorem Memory.read?_write (m : Memory) (k : Nat) (v : Byte) (j : Nat) :
    (m.write k v).read? j = if j = k then some v else m.read? j := by
  have key : ∀ (a : Nat) (b : Byte) (m : Memory), Memory.read? ((a, b) :: m) j = if j = a then some b else m.read? j :=
    fun a b m => by simp only [Memory.read?, eq_comm]
  induction m with
  | nil => simp only [Memory.write, key]
  | cons c m ih =>
    obtain ⟨a, b⟩ := c
    by_cases h1 : k < a
    · simp only [Memory.write, if_pos h1, key]
    · by_cases h2 : k = a
      · simp only [Memory.write, if_neg h1, if_pos h2, key]
        subst h2; split_ifs <;> rfl
      · simp only [Memory.write, if_neg h1, if_neg h2, key, ih]
        split_ifs <;> first | rfl | omega

theorem Memory.read?_write_same (m : Memory) (k : Nat) (v : Byte) : (m.write k v).read? k = some v := by
  simp [Memory.read?_write]

theorem Memory.read?_write_other (m : Memory) (k : Nat) (v : Byte) (j : Nat) (h : j ≠ k) :
    (m.write k v).read? j = m.read? j := by
  simp [Memory.read?_write, h]

/-- Reading after a write of consecutive bytes: the bytes in their range, every other offset as before. -/
theorem Memory.read?_writeBytes (m : Memory) (a : Nat) (bs : List Byte) (j : Nat) :
    (m.writeBytes a bs).read? j =
      if a ≤ j ∧ j < a + bs.length then some (bs.getD (j - a) 0#8) else m.read? j := by
  induction bs generalizing m a with
  | nil => rw [if_neg (by simp only [List.length_nil]; omega)]; rfl
  | cons b bs ih =>
    simp only [Memory.writeBytes, ih, Memory.read?_write, List.length_cons]
    rcases lt_trichotomy j a with h | h | h
    · rw [if_neg (by omega), if_neg (by omega), if_neg (by omega)]
    · subst h; rw [if_neg (by omega), if_pos rfl, if_pos (by omega)]; simp
    · by_cases h2 : j < a + (bs.length + 1)
      · rw [if_pos (by omega), if_pos (by omega)]
        obtain ⟨e, he⟩ : ∃ e, j - a = e + 1 := ⟨j - a - 1, by omega⟩
        rw [he, show j - (a + 1) = e by omega]; simp
      · rw [if_neg (by omega), if_neg (by omega), if_neg (by omega)]

/-- The canonical form as a relation: every later entry lies above the first, and the rest is canonical. -/
theorem Memory.wf_cons (a : Nat) (b : Byte) (m : Memory) :
    Memory.wf ((a, b) :: m) = true ↔ (∀ c ∈ m, a < c.1) ∧ m.wf = true := by
  induction m generalizing a b with
  | nil => simp [Memory.wf]
  | cons c m ih =>
    obtain ⟨e, f⟩ := c
    simp only [Memory.wf, Bool.and_eq_true, decide_eq_true_eq, List.mem_cons]
    constructor
    · rintro ⟨h, hw⟩
      refine ⟨?_, hw⟩
      rintro d (rfl | hd)
      · exact h
      · exact lt_trans h (((ih e f).1 hw).1 d hd)
    · rintro ⟨h, hw⟩
      exact ⟨h (e, f) (Or.inl rfl), hw⟩

/-- What a write lists: the written byte and entries that were listed. -/
theorem Memory.mem_write (m : Memory) (k : Nat) (v : Byte) (c : Host.Cell) (h : c ∈ m.write k v) :
    c = (k, v) ∨ c ∈ m := by
  induction m with
  | nil => simpa [Memory.write] using h
  | cons d m ih =>
    obtain ⟨a, b⟩ := d
    simp only [Memory.write] at h
    split at h
    · simpa using h
    · split at h
      · rcases List.mem_cons.1 h with h | h
        · exact Or.inl h
        · exact Or.inr (List.mem_cons_of_mem _ h)
      · rcases List.mem_cons.1 h with h | h
        · exact Or.inr (h ▸ List.mem_cons_self)
        · rcases ih h with h | h
          · exact Or.inl h
          · exact Or.inr (List.mem_cons_of_mem _ h)

/-- A write keeps the canonical form. -/
theorem Memory.wf_write (m : Memory) (k : Nat) (v : Byte) (h : m.wf = true) : (m.write k v).wf = true := by
  induction m with
  | nil => rfl
  | cons d m ih =>
    obtain ⟨a, b⟩ := d
    have hc := (Memory.wf_cons a b m).1 h
    simp only [Memory.write]
    split
    · refine (Memory.wf_cons _ _ _).2 ⟨?_, h⟩
      intro c hm
      rcases List.mem_cons.1 hm with rfl | hm
      · assumption
      · exact lt_trans ‹k < a› (hc.1 c hm)
    · split
      · subst_vars; exact (Memory.wf_cons _ _ _).2 hc
      · refine (Memory.wf_cons _ _ _).2 ⟨?_, ih hc.2⟩
        intro c hm
        rcases Memory.mem_write m k v c hm with rfl | hm
        · show a < k; omega
        · exact hc.1 c hm

/-- A write of consecutive bytes keeps the canonical form. -/
theorem Memory.wf_writeBytes (m : Memory) (a : Nat) (bs : List Byte) (h : m.wf = true) :
    (m.writeBytes a bs).wf = true := by
  induction bs generalizing m a with
  | nil => exact h
  | cons b bs ih => exact ih _ _ (Memory.wf_write m a b h)

/-- A write lists only allowed offsets if the written one is allowed. -/
theorem Memory.all_write (p : Nat → Bool) (m : Memory) (k : Nat) (v : Byte) (hk : p k = true)
    (h : m.all (fun c => p c.1) = true) : (m.write k v).all (fun c => p c.1) = true := by
  rw [List.all_eq_true] at h ⊢
  intro c hc
  rcases Memory.mem_write m k v c hc with rfl | hm
  · exact hk
  · exact h c hm

theorem Memory.all_writeBytes (p : Nat → Bool) (m : Memory) (a : Nat) (bs : List Byte)
    (hp : ∀ j, a ≤ j → j < a + bs.length → p j = true)
    (h : m.all (fun c => p c.1) = true) : (m.writeBytes a bs).all (fun c => p c.1) = true := by
  induction bs generalizing m a with
  | nil => exact h
  | cons b bs ih =>
    simp only [List.length_cons] at hp
    exact ih _ _ (fun j h1 h2 => hp j (by omega) (by omega))
      (Memory.all_write p m a b (hp a (by omega) (by omega)) h)

end Sys2Proof.Machine
end

