-- ==== Sys2Proof/Laws/State.lean ====
section
/-! SUPPORT. One lemma per field per update of State, so that no proof unfolds a record update. -/

namespace Sys2Proof.Machine

@[simp] theorem setCmd_params (s : State) (v : Word) : (s.setCmd v).params = s.params := rfl
@[simp] theorem setCmd_cmd (s : State) (v : Word) : (s.setCmd v).cmd = v := rfl
@[simp] theorem setCmd_status (s : State) (v : Word) : (s.setCmd v).status = s.status := rfl
@[simp] theorem setCmd_len (s : State) (v : Word) : (s.setCmd v).len = s.len := rfl
@[simp] theorem setCmd_first (s : State) (v : Word) : (s.setCmd v).first = s.first := rfl
@[simp] theorem setCmd_firstOut (s : State) (v : Word) : (s.setCmd v).firstOut = s.firstOut := rfl
@[simp] theorem setCmd_irqEn (s : State) (v : Word) : (s.setCmd v).irqEn = s.irqEn := rfl
@[simp] theorem setCmd_engine (s : State) (v : Word) : (s.setCmd v).engine = s.engine := rfl
@[simp] theorem setCmd_mem (s : State) (v : Word) : (s.setCmd v).mem = s.mem := rfl
@[simp] theorem setCmd_inputs (s : State) (v : Word) : (s.setCmd v).inputs = s.inputs := rfl
@[simp] theorem setCmd_response (s : State) (v : Word) : (s.setCmd v).response = s.response := rfl
@[simp] theorem setCmd_draws (s : State) (v : Word) : (s.setCmd v).draws = s.draws := rfl
@[simp] theorem setCmd_resets (s : State) (v : Word) : (s.setCmd v).resets = s.resets := rfl

@[simp] theorem setStatus_params (s : State) (v : Status) : (s.setStatus v).params = s.params := rfl
@[simp] theorem setStatus_cmd (s : State) (v : Status) : (s.setStatus v).cmd = s.cmd := rfl
@[simp] theorem setStatus_status (s : State) (v : Status) : (s.setStatus v).status = v := rfl
@[simp] theorem setStatus_len (s : State) (v : Status) : (s.setStatus v).len = s.len := rfl
@[simp] theorem setStatus_first (s : State) (v : Status) : (s.setStatus v).first = s.first := rfl
@[simp] theorem setStatus_firstOut (s : State) (v : Status) : (s.setStatus v).firstOut = s.firstOut := rfl
@[simp] theorem setStatus_irqEn (s : State) (v : Status) : (s.setStatus v).irqEn = s.irqEn := rfl
@[simp] theorem setStatus_engine (s : State) (v : Status) : (s.setStatus v).engine = s.engine := rfl
@[simp] theorem setStatus_mem (s : State) (v : Status) : (s.setStatus v).mem = s.mem := rfl
@[simp] theorem setStatus_inputs (s : State) (v : Status) : (s.setStatus v).inputs = s.inputs := rfl
@[simp] theorem setStatus_response (s : State) (v : Status) : (s.setStatus v).response = s.response := rfl
@[simp] theorem setStatus_draws (s : State) (v : Status) : (s.setStatus v).draws = s.draws := rfl
@[simp] theorem setStatus_resets (s : State) (v : Status) : (s.setStatus v).resets = s.resets := rfl

@[simp] theorem setLen_params (s : State) (v : Word) : (s.setLen v).params = s.params := rfl
@[simp] theorem setLen_cmd (s : State) (v : Word) : (s.setLen v).cmd = s.cmd := rfl
@[simp] theorem setLen_status (s : State) (v : Word) : (s.setLen v).status = s.status := rfl
@[simp] theorem setLen_len (s : State) (v : Word) : (s.setLen v).len = v := rfl
@[simp] theorem setLen_first (s : State) (v : Word) : (s.setLen v).first = s.first := rfl
@[simp] theorem setLen_firstOut (s : State) (v : Word) : (s.setLen v).firstOut = s.firstOut := rfl
@[simp] theorem setLen_irqEn (s : State) (v : Word) : (s.setLen v).irqEn = s.irqEn := rfl
@[simp] theorem setLen_engine (s : State) (v : Word) : (s.setLen v).engine = s.engine := rfl
@[simp] theorem setLen_mem (s : State) (v : Word) : (s.setLen v).mem = s.mem := rfl
@[simp] theorem setLen_inputs (s : State) (v : Word) : (s.setLen v).inputs = s.inputs := rfl
@[simp] theorem setLen_response (s : State) (v : Word) : (s.setLen v).response = s.response := rfl
@[simp] theorem setLen_draws (s : State) (v : Word) : (s.setLen v).draws = s.draws := rfl
@[simp] theorem setLen_resets (s : State) (v : Word) : (s.setLen v).resets = s.resets := rfl

@[simp] theorem setFirst_params (s : State) (v : Word) : (s.setFirst v).params = s.params := rfl
@[simp] theorem setFirst_cmd (s : State) (v : Word) : (s.setFirst v).cmd = s.cmd := rfl
@[simp] theorem setFirst_status (s : State) (v : Word) : (s.setFirst v).status = s.status := rfl
@[simp] theorem setFirst_len (s : State) (v : Word) : (s.setFirst v).len = s.len := rfl
@[simp] theorem setFirst_first (s : State) (v : Word) : (s.setFirst v).first = v := rfl
@[simp] theorem setFirst_firstOut (s : State) (v : Word) : (s.setFirst v).firstOut = s.firstOut := rfl
@[simp] theorem setFirst_irqEn (s : State) (v : Word) : (s.setFirst v).irqEn = s.irqEn := rfl
@[simp] theorem setFirst_engine (s : State) (v : Word) : (s.setFirst v).engine = s.engine := rfl
@[simp] theorem setFirst_mem (s : State) (v : Word) : (s.setFirst v).mem = s.mem := rfl
@[simp] theorem setFirst_inputs (s : State) (v : Word) : (s.setFirst v).inputs = s.inputs := rfl
@[simp] theorem setFirst_response (s : State) (v : Word) : (s.setFirst v).response = s.response := rfl
@[simp] theorem setFirst_draws (s : State) (v : Word) : (s.setFirst v).draws = s.draws := rfl
@[simp] theorem setFirst_resets (s : State) (v : Word) : (s.setFirst v).resets = s.resets := rfl

@[simp] theorem setFirstOut_params (s : State) (v : Word) : (s.setFirstOut v).params = s.params := rfl
@[simp] theorem setFirstOut_cmd (s : State) (v : Word) : (s.setFirstOut v).cmd = s.cmd := rfl
@[simp] theorem setFirstOut_status (s : State) (v : Word) : (s.setFirstOut v).status = s.status := rfl
@[simp] theorem setFirstOut_len (s : State) (v : Word) : (s.setFirstOut v).len = s.len := rfl
@[simp] theorem setFirstOut_first (s : State) (v : Word) : (s.setFirstOut v).first = s.first := rfl
@[simp] theorem setFirstOut_firstOut (s : State) (v : Word) : (s.setFirstOut v).firstOut = v := rfl
@[simp] theorem setFirstOut_irqEn (s : State) (v : Word) : (s.setFirstOut v).irqEn = s.irqEn := rfl
@[simp] theorem setFirstOut_engine (s : State) (v : Word) : (s.setFirstOut v).engine = s.engine := rfl
@[simp] theorem setFirstOut_mem (s : State) (v : Word) : (s.setFirstOut v).mem = s.mem := rfl
@[simp] theorem setFirstOut_inputs (s : State) (v : Word) : (s.setFirstOut v).inputs = s.inputs := rfl
@[simp] theorem setFirstOut_response (s : State) (v : Word) : (s.setFirstOut v).response = s.response := rfl
@[simp] theorem setFirstOut_draws (s : State) (v : Word) : (s.setFirstOut v).draws = s.draws := rfl
@[simp] theorem setFirstOut_resets (s : State) (v : Word) : (s.setFirstOut v).resets = s.resets := rfl

@[simp] theorem setIrqEn_params (s : State) (v : BitVec 2) : (s.setIrqEn v).params = s.params := rfl
@[simp] theorem setIrqEn_cmd (s : State) (v : BitVec 2) : (s.setIrqEn v).cmd = s.cmd := rfl
@[simp] theorem setIrqEn_status (s : State) (v : BitVec 2) : (s.setIrqEn v).status = s.status := rfl
@[simp] theorem setIrqEn_len (s : State) (v : BitVec 2) : (s.setIrqEn v).len = s.len := rfl
@[simp] theorem setIrqEn_first (s : State) (v : BitVec 2) : (s.setIrqEn v).first = s.first := rfl
@[simp] theorem setIrqEn_firstOut (s : State) (v : BitVec 2) : (s.setIrqEn v).firstOut = s.firstOut := rfl
@[simp] theorem setIrqEn_irqEn (s : State) (v : BitVec 2) : (s.setIrqEn v).irqEn = v := rfl
@[simp] theorem setIrqEn_engine (s : State) (v : BitVec 2) : (s.setIrqEn v).engine = s.engine := rfl
@[simp] theorem setIrqEn_mem (s : State) (v : BitVec 2) : (s.setIrqEn v).mem = s.mem := rfl
@[simp] theorem setIrqEn_inputs (s : State) (v : BitVec 2) : (s.setIrqEn v).inputs = s.inputs := rfl
@[simp] theorem setIrqEn_response (s : State) (v : BitVec 2) : (s.setIrqEn v).response = s.response := rfl
@[simp] theorem setIrqEn_draws (s : State) (v : BitVec 2) : (s.setIrqEn v).draws = s.draws := rfl
@[simp] theorem setIrqEn_resets (s : State) (v : BitVec 2) : (s.setIrqEn v).resets = s.resets := rfl

@[simp] theorem setEngine_params (s : State) (v : Engine) : (s.setEngine v).params = s.params := rfl
@[simp] theorem setEngine_cmd (s : State) (v : Engine) : (s.setEngine v).cmd = s.cmd := rfl
@[simp] theorem setEngine_status (s : State) (v : Engine) : (s.setEngine v).status = s.status := rfl
@[simp] theorem setEngine_len (s : State) (v : Engine) : (s.setEngine v).len = s.len := rfl
@[simp] theorem setEngine_first (s : State) (v : Engine) : (s.setEngine v).first = s.first := rfl
@[simp] theorem setEngine_firstOut (s : State) (v : Engine) : (s.setEngine v).firstOut = s.firstOut := rfl
@[simp] theorem setEngine_irqEn (s : State) (v : Engine) : (s.setEngine v).irqEn = s.irqEn := rfl
@[simp] theorem setEngine_engine (s : State) (v : Engine) : (s.setEngine v).engine = v := rfl
@[simp] theorem setEngine_mem (s : State) (v : Engine) : (s.setEngine v).mem = s.mem := rfl
@[simp] theorem setEngine_inputs (s : State) (v : Engine) : (s.setEngine v).inputs = s.inputs := rfl
@[simp] theorem setEngine_response (s : State) (v : Engine) : (s.setEngine v).response = s.response := rfl
@[simp] theorem setEngine_draws (s : State) (v : Engine) : (s.setEngine v).draws = s.draws := rfl
@[simp] theorem setEngine_resets (s : State) (v : Engine) : (s.setEngine v).resets = s.resets := rfl

@[simp] theorem setMem_params (s : State) (v : Memory) : (s.setMem v).params = s.params := rfl
@[simp] theorem setMem_cmd (s : State) (v : Memory) : (s.setMem v).cmd = s.cmd := rfl
@[simp] theorem setMem_status (s : State) (v : Memory) : (s.setMem v).status = s.status := rfl
@[simp] theorem setMem_len (s : State) (v : Memory) : (s.setMem v).len = s.len := rfl
@[simp] theorem setMem_first (s : State) (v : Memory) : (s.setMem v).first = s.first := rfl
@[simp] theorem setMem_firstOut (s : State) (v : Memory) : (s.setMem v).firstOut = s.firstOut := rfl
@[simp] theorem setMem_irqEn (s : State) (v : Memory) : (s.setMem v).irqEn = s.irqEn := rfl
@[simp] theorem setMem_engine (s : State) (v : Memory) : (s.setMem v).engine = s.engine := rfl
@[simp] theorem setMem_mem (s : State) (v : Memory) : (s.setMem v).mem = v := rfl
@[simp] theorem setMem_inputs (s : State) (v : Memory) : (s.setMem v).inputs = s.inputs := rfl
@[simp] theorem setMem_response (s : State) (v : Memory) : (s.setMem v).response = s.response := rfl
@[simp] theorem setMem_draws (s : State) (v : Memory) : (s.setMem v).draws = s.draws := rfl
@[simp] theorem setMem_resets (s : State) (v : Memory) : (s.setMem v).resets = s.resets := rfl

@[simp] theorem setInputs_params (s : State) (v : List Input) : (s.setInputs v).params = s.params := rfl
@[simp] theorem setInputs_cmd (s : State) (v : List Input) : (s.setInputs v).cmd = s.cmd := rfl
@[simp] theorem setInputs_status (s : State) (v : List Input) : (s.setInputs v).status = s.status := rfl
@[simp] theorem setInputs_len (s : State) (v : List Input) : (s.setInputs v).len = s.len := rfl
@[simp] theorem setInputs_first (s : State) (v : List Input) : (s.setInputs v).first = s.first := rfl
@[simp] theorem setInputs_firstOut (s : State) (v : List Input) : (s.setInputs v).firstOut = s.firstOut := rfl
@[simp] theorem setInputs_irqEn (s : State) (v : List Input) : (s.setInputs v).irqEn = s.irqEn := rfl
@[simp] theorem setInputs_engine (s : State) (v : List Input) : (s.setInputs v).engine = s.engine := rfl
@[simp] theorem setInputs_mem (s : State) (v : List Input) : (s.setInputs v).mem = s.mem := rfl
@[simp] theorem setInputs_inputs (s : State) (v : List Input) : (s.setInputs v).inputs = v := rfl
@[simp] theorem setInputs_response (s : State) (v : List Input) : (s.setInputs v).response = s.response := rfl
@[simp] theorem setInputs_draws (s : State) (v : List Input) : (s.setInputs v).draws = s.draws := rfl
@[simp] theorem setInputs_resets (s : State) (v : List Input) : (s.setInputs v).resets = s.resets := rfl

@[simp] theorem setResponse_params (s : State) (v : Option Response) : (s.setResponse v).params = s.params := rfl
@[simp] theorem setResponse_cmd (s : State) (v : Option Response) : (s.setResponse v).cmd = s.cmd := rfl
@[simp] theorem setResponse_status (s : State) (v : Option Response) : (s.setResponse v).status = s.status := rfl
@[simp] theorem setResponse_len (s : State) (v : Option Response) : (s.setResponse v).len = s.len := rfl
@[simp] theorem setResponse_first (s : State) (v : Option Response) : (s.setResponse v).first = s.first := rfl
@[simp] theorem setResponse_firstOut (s : State) (v : Option Response) : (s.setResponse v).firstOut = s.firstOut := rfl
@[simp] theorem setResponse_irqEn (s : State) (v : Option Response) : (s.setResponse v).irqEn = s.irqEn := rfl
@[simp] theorem setResponse_engine (s : State) (v : Option Response) : (s.setResponse v).engine = s.engine := rfl
@[simp] theorem setResponse_mem (s : State) (v : Option Response) : (s.setResponse v).mem = s.mem := rfl
@[simp] theorem setResponse_inputs (s : State) (v : Option Response) : (s.setResponse v).inputs = s.inputs := rfl
@[simp] theorem setResponse_response (s : State) (v : Option Response) : (s.setResponse v).response = v := rfl
@[simp] theorem setResponse_draws (s : State) (v : Option Response) : (s.setResponse v).draws = s.draws := rfl
@[simp] theorem setResponse_resets (s : State) (v : Option Response) : (s.setResponse v).resets = s.resets := rfl

@[simp] theorem setDraws_params (s : State) (v : Nat) : (s.setDraws v).params = s.params := rfl
@[simp] theorem setDraws_cmd (s : State) (v : Nat) : (s.setDraws v).cmd = s.cmd := rfl
@[simp] theorem setDraws_status (s : State) (v : Nat) : (s.setDraws v).status = s.status := rfl
@[simp] theorem setDraws_len (s : State) (v : Nat) : (s.setDraws v).len = s.len := rfl
@[simp] theorem setDraws_first (s : State) (v : Nat) : (s.setDraws v).first = s.first := rfl
@[simp] theorem setDraws_firstOut (s : State) (v : Nat) : (s.setDraws v).firstOut = s.firstOut := rfl
@[simp] theorem setDraws_irqEn (s : State) (v : Nat) : (s.setDraws v).irqEn = s.irqEn := rfl
@[simp] theorem setDraws_engine (s : State) (v : Nat) : (s.setDraws v).engine = s.engine := rfl
@[simp] theorem setDraws_mem (s : State) (v : Nat) : (s.setDraws v).mem = s.mem := rfl
@[simp] theorem setDraws_inputs (s : State) (v : Nat) : (s.setDraws v).inputs = s.inputs := rfl
@[simp] theorem setDraws_response (s : State) (v : Nat) : (s.setDraws v).response = s.response := rfl
@[simp] theorem setDraws_draws (s : State) (v : Nat) : (s.setDraws v).draws = v := rfl
@[simp] theorem setDraws_resets (s : State) (v : Nat) : (s.setDraws v).resets = s.resets := rfl

end Sys2Proof.Machine
end

