-- ==== Sys2Proof/Laws/Ops.lean ====
section
/-! SUPPORT. One lemma per shared operation of the command lifecycle: what it can do and what it leaves. -/

namespace Sys2Proof.Machine

/-- A byte of the buffers after DST[0..] has been written. -/
theorem byteAt_storeDst (s : State) (out : List Byte) (a : Nat) :
    (s.storeDst out).byteAt a =
      if dstBase ≤ a ∧ a < dstBase + out.length then out.getD (a - dstBase) 0#8 else s.byteAt a := by
  simp only [State.byteAt, State.storeDst, setMem_mem, setMem_resets, Memory.read?_writeBytes]
  split <;> simp

/-- The bytes PERM[0..] takes for an index array. -/
theorem length_permBytes (index : List Nat) :
    (index.flatMap fun i => bytesOfWord (indexWord i)).length = 4 * index.length := by
  induction index with
  | nil => rfl
  | cons i l ih => simp only [List.flatMap_cons, List.length_append, ih, List.length_cons]; simp [bytesOfWord]; omega

/-- A byte of the buffers after PERM[0..] has been written. -/
theorem byteAt_storePerm (s : State) (index : List Nat) (a : Nat) :
    (s.storePerm index).byteAt a =
      if permBase ≤ a ∧ a < permBase + 4 * index.length then
        (index.flatMap fun i => bytesOfWord (indexWord i)).getD (a - permBase) 0#8
      else s.byteAt a := by
  simp only [State.byteAt, State.storePerm, setMem_mem, setMem_resets, Memory.read?_writeBytes, length_permBytes]
  split <;> simp

/-- Four bytes taken from a word make that word again (R63). -/
theorem wordOfBytes_lanes (w : Word) : wordOfBytes (laneOf w 0) (laneOf w 1) (laneOf w 2) (laneOf w 3) = w := by
  apply BitVec.eq_of_getLsbD_eq
  intro i hi
  simp only [wordOfBytes, laneOf, BitVec.getLsbD_append, BitVec.getLsbD_extractLsb']
  rcases Nat.lt_or_ge i 8 with h | h
  · simp [h]
  · rcases Nat.lt_or_ge i 16 with h2 | h2
    · simp [Nat.not_lt.2 h, show i - 8 < 8 by omega, show 8 + (i - 8) = i by omega]
    · rcases Nat.lt_or_ge i 24 with h3 | h3
      · simp [Nat.not_lt.2 h, show ¬ i - 8 < 8 by omega, show i - 8 - 8 < 8 by omega,
          show 8 * 2 + (i - 8 - 8) = i by omega]
      · simp [Nat.not_lt.2 h, show ¬ i - 8 < 8 by omega, show ¬ i - 8 - 8 < 8 by omega,
          show i - 8 - 8 - 8 < 8 by omega, show 8 * 3 + (i - 8 - 8 - 8) = i by omega]

/-- A run of a command has two ends: the error its operands have, or its outputs and the completion. -/
theorem runCommand_cases (i : Instr) (s outputs t : State) (h : runCommand i s outputs = .next t) :
    (∃ e, operandError i s = some e ∧ t = s.failComplete e) ∨ (operandError i s = none ∧ t = outputs.complete) := by
  unfold runCommand at h
  split at h <;> simp only [Host.Outcome.next.injEq] at h <;> subst h
  · exact Or.inl ⟨_, ‹_›, rfl⟩
  · exact Or.inr ⟨‹_›, rfl⟩

theorem runCommand_ok (i : Instr) (s outputs : State) (h : operandError i s = none) :
    runCommand i s outputs = .next outputs.complete := by simp [runCommand, h]

theorem runCommand_fails (i : Instr) (s outputs : State) (e : CmdError) (h : operandError i s = some e) :
    runCommand i s outputs = .next (s.failComplete e) := by simp [runCommand, h]

/-- What an instruction writes before the end of its completion step (R39). -/
def outputsOf (i : Instr) (s : State) : State :=
  match i with
  | .nop => s
  | .sort => s.storePerm (sortPerm s.operand false)
  | .sortCut => s.storePerm (sortPerm s.operand true)
  | .bwtf => bwtForward s false
  | .bwtfCut => bwtForward s true
  | .bwti => s.storeDst (bwtInverse s.firstIndex s.operand)
  | .mtfe => s.storeDst (mtfEncode s.operand)
  | .mtfd => s.storeDst (mtfDecode s.operand)

/-- Every instruction is one run over its outputs. -/
theorem exec_eq_runCommand (i : Instr) (s : State) : exec i s = runCommand i s (outputsOf i s) := by
  cases i <;> rfl

/-- Every instruction ends in a next state: failed with its operands' error, or completed with its outputs. -/
theorem exec_cases (i : Instr) (s : State) :
    (∃ e, operandError i s = some e ∧ exec i s = .next (s.failComplete e)) ∨
    (operandError i s = none ∧ exec i s = .next (outputsOf i s).complete) := by
  rw [exec_eq_runCommand]
  unfold runCommand
  split
  · exact Or.inl ⟨_, ‹_›, rfl⟩
  · exact Or.inr ⟨‹_›, rfl⟩

@[simp] theorem complete_engine (s : State) : s.complete.engine = .idle := rfl
@[simp] theorem complete_status (s : State) : s.complete.status = { s.status with done := true } := rfl
@[simp] theorem complete_params (s : State) : s.complete.params = s.params := rfl
@[simp] theorem complete_cmd (s : State) : s.complete.cmd = s.cmd := rfl
@[simp] theorem complete_len (s : State) : s.complete.len = s.len := rfl
@[simp] theorem complete_first (s : State) : s.complete.first = s.first := rfl
@[simp] theorem complete_firstOut (s : State) : s.complete.firstOut = s.firstOut := rfl
@[simp] theorem complete_irqEn (s : State) : s.complete.irqEn = s.irqEn := rfl
@[simp] theorem complete_mem (s : State) : s.complete.mem = s.mem := rfl
@[simp] theorem complete_inputs (s : State) : s.complete.inputs = s.inputs := rfl
@[simp] theorem complete_response (s : State) : s.complete.response = s.response := rfl
@[simp] theorem complete_draws (s : State) : s.complete.draws = s.draws := rfl
@[simp] theorem complete_resets (s : State) : s.complete.resets = s.resets := rfl

@[simp] theorem failComplete_engine (s : State) (e : CmdError) : (s.failComplete e).engine = .idle := rfl
@[simp] theorem failComplete_status (s : State) (e : CmdError) : (s.failComplete e).status = s.status.failed e := rfl
@[simp] theorem failComplete_params (s : State) (e : CmdError) : (s.failComplete e).params = s.params := rfl
@[simp] theorem failComplete_cmd (s : State) (e : CmdError) : (s.failComplete e).cmd = s.cmd := rfl
@[simp] theorem failComplete_len (s : State) (e : CmdError) : (s.failComplete e).len = s.len := rfl
@[simp] theorem failComplete_first (s : State) (e : CmdError) : (s.failComplete e).first = s.first := rfl
@[simp] theorem failComplete_firstOut (s : State) (e : CmdError) : (s.failComplete e).firstOut = s.firstOut := rfl
@[simp] theorem failComplete_irqEn (s : State) (e : CmdError) : (s.failComplete e).irqEn = s.irqEn := rfl
@[simp] theorem failComplete_mem (s : State) (e : CmdError) : (s.failComplete e).mem = s.mem := rfl
@[simp] theorem failComplete_inputs (s : State) (e : CmdError) : (s.failComplete e).inputs = s.inputs := rfl
@[simp] theorem failComplete_response (s : State) (e : CmdError) : (s.failComplete e).response = s.response := rfl
@[simp] theorem failComplete_draws (s : State) (e : CmdError) : (s.failComplete e).draws = s.draws := rfl
@[simp] theorem failComplete_resets (s : State) (e : CmdError) : (s.failComplete e).resets = s.resets := rfl

/-- Acceptance has two ends: a failed completion, or BUSY with the word's instruction (R101). -/
theorem accept_cases (s : State) (w : Word) (latency : Nat) :
    (∃ e, validate w s = .error e ∧ s.accept w latency = (s.takeCommand w).failComplete e) ∨
    (∃ i, validate w s = .instr i ∧ s.accept w latency = (s.takeCommand w).enterBusy i (latency + 1)) := by
  unfold State.accept
  split
  · exact Or.inl ⟨_, ‹_›, rfl⟩
  · exact Or.inr ⟨_, ‹_›, rfl⟩

/-- A word is valid exactly when it decodes and its operands pass their checks (R101). -/
theorem validate_instr (w : Word) (s : State) (i : Instr) :
    validate w s = .instr i ↔ decode w = .instr i ∧ operandError i s = none := by
  unfold validate
  constructor
  · intro h
    split at h
    · cases h
    · split at h
      · cases h
      · cases h; exact ⟨‹_›, ‹_›⟩
  · rintro ⟨h1, h2⟩; simp [h1, h2]

/-- The operand checks read LEN, FIRST and NMAX alone. -/
theorem operandError_congr (i : Instr) (s t : State) (hl : s.len = t.len) (hf : s.first = t.first)
    (hp : s.params = t.params) : operandError i s = operandError i t := by
  have hn : s.n = t.n := by simp only [State.n, hl]
  have hm : s.nmax = t.nmax := by simp only [State.nmax, hp]
  have hi : s.firstIndex = t.firstIndex := by simp only [State.firstIndex, hf]
  have h1 : s.lenError = t.lenError := by simp only [State.lenError, hn, hm]
  have h2 : s.firstError = t.firstError := by simp only [State.firstError, hn, hi]
  cases i <;> simp only [operandError, Instr.op, h1, h2]

/-- Validation reads the word, LEN, FIRST and NMAX alone. -/
theorem validate_congr (w : Word) (s t : State) (hl : s.len = t.len) (hf : s.first = t.first)
    (hp : s.params = t.params) : validate w s = validate w t := by
  unfold validate
  split
  · rfl
  · rw [operandError_congr _ s t hl hf hp]

/-- A length within NMAX passes the length check. -/
theorem lenError_none (s : State) (h : s.len.toNat ≤ s.params.nmax) : s.lenError = none := by
  exact if_neg (Nat.not_lt.2 h)

/-- An entry of PERM after PERM[0..] has been written. -/
theorem permEntry_storePerm (s : State) (index : List Nat) (r : Nat) (hr : r < index.length) :
    (s.storePerm index).permEntry r = indexWord (index.getD r 0) := by
  have key : ∀ j, j < 4 → (s.storePerm index).byteAt (permBase + 4 * r + j) = laneOf (indexWord (index.getD r 0)) j := by
    intro j hj
    rw [byteAt_storePerm, if_pos (by omega), show permBase + 4 * r + j - permBase = 4 * r + j by omega]
    clear s
    induction index generalizing r with
    | nil => simp at hr
    | cons a l ih =>
      rcases r with _ | r
      · simp only [List.flatMap_cons, bytesOfWord]; interval_cases j <;> rfl
      · rw [List.getD_cons_succ, ← ih r (by simpa using hr), List.flatMap_cons, List.getD_append_right]
        · congr 1; simp only [bytesOfWord, List.length_cons, List.length_nil]; omega
        · simp only [bytesOfWord, List.length_cons, List.length_nil]; omega
  have h0 := key 0 (by omega)
  rw [Nat.add_zero] at h0
  unfold State.permEntry
  rw [h0, key 1 (by omega), key 2 (by omega), key 3 (by omega), wordOfBytes_lanes]

/-- What one instruction's outputs leave: everything but DST, PERM and FIRST_OUT (R38). -/
theorem outputsOf_frame (i : Instr) (s : State) :
    (outputsOf i s).params = s.params ∧ (outputsOf i s).cmd = s.cmd ∧ (outputsOf i s).status = s.status ∧
    (outputsOf i s).len = s.len ∧ (outputsOf i s).first = s.first ∧ (outputsOf i s).irqEn = s.irqEn ∧
    (outputsOf i s).inputs = s.inputs ∧ (outputsOf i s).response = s.response ∧ (outputsOf i s).draws = s.draws ∧
    (outputsOf i s).resets = s.resets := by
  cases i <;> simp only [outputsOf, bwtForward, State.storePerm, State.storeDst] <;> (try split) <;> simp

end Sys2Proof.Machine
end

