-- ==== Sys2Proof/Laws/Bus.lean ====
section
/-! SUPPORT. One lemma per operation of the host bus: what a write can do, and what a request leaves. -/

namespace Sys2Proof.Machine

theorem locOf_reg (r : Reg) : locOf r.offset = .reg r := by cases r <;> rfl

/-- The window an aligned offset names, by range (R22). -/
theorem locOf_cases (off : Nat) :
    (∃ r, locOf off = .reg r ∧ off = r.offset) ∨
    (locOf off = .src ((off - srcBase) / 4) ∧ srcBase ≤ off ∧ off < srcBase + 0x100000) ∨
    (locOf off = .dst ((off - dstBase) / 4) ∧ dstBase ≤ off ∧ off < dstBase + 0x100000) ∨
    (locOf off = .perm ((off - permBase) / 4) ∧ permBase ≤ off ∧ off < permBase + 0x400000) ∨
    locOf off = .reserved := by
  unfold locOf
  by_cases h0 : off = 0x00
  · rw [if_pos h0]; exact Or.inl ⟨.id, rfl, h0⟩
  rw [if_neg h0]
  by_cases h1 : off = 0x04
  · rw [if_pos h1]; exact Or.inl ⟨.version, rfl, h1⟩
  rw [if_neg h1]
  by_cases h2 : off = 0x08
  · rw [if_pos h2]; exact Or.inl ⟨.caps, rfl, h2⟩
  rw [if_neg h2]
  by_cases h3 : off = 0x10
  · rw [if_pos h3]; exact Or.inl ⟨.cmd, rfl, h3⟩
  rw [if_neg h3]
  by_cases h4 : off = 0x14
  · rw [if_pos h4]; exact Or.inl ⟨.status, rfl, h4⟩
  rw [if_neg h4]
  by_cases h5 : off = 0x18
  · rw [if_pos h5]; exact Or.inl ⟨.len, rfl, h5⟩
  rw [if_neg h5]
  by_cases h6 : off = 0x1C
  · rw [if_pos h6]; exact Or.inl ⟨.first, rfl, h6⟩
  rw [if_neg h6]
  by_cases h7 : off = 0x20
  · rw [if_pos h7]; exact Or.inl ⟨.firstOut, rfl, h7⟩
  rw [if_neg h7]
  by_cases h8 : off = 0x24
  · rw [if_pos h8]; exact Or.inl ⟨.irqEn, rfl, h8⟩
  rw [if_neg h8]
  by_cases h9 : 0x100000 ≤ off ∧ off ≤ 0x1FFFFF
  · rw [if_pos h9]; exact Or.inr (Or.inl ⟨rfl, h9.1, by simp only [srcBase]; omega⟩)
  rw [if_neg h9]
  by_cases h10 : 0x200000 ≤ off ∧ off ≤ 0x2FFFFF
  · rw [if_pos h10]; exact Or.inr (Or.inr (Or.inl ⟨rfl, h10.1, by simp only [dstBase]; omega⟩))
  rw [if_neg h10]
  by_cases h11 : 0x400000 ≤ off ∧ off ≤ 0x7FFFFF
  · rw [if_pos h11]; exact Or.inr (Or.inr (Or.inr (Or.inl ⟨rfl, h11.1, by simp only [permBase]; omega⟩)))
  rw [if_neg h11]
  exact Or.inr (Or.inr (Or.inr (Or.inr rfl)))

theorem locOf_src (off : Nat) (h1 : 0x100000 ≤ off) (h2 : off < 0x200000) : locOf off = .src ((off - 0x100000) / 4) := by
  unfold locOf
  iterate 9 rw [if_neg (by omega)]
  rw [if_pos (by omega)]

theorem locOf_dst (off : Nat) (h1 : 0x200000 ≤ off) (h2 : off < 0x300000) : locOf off = .dst ((off - 0x200000) / 4) := by
  unfold locOf
  iterate 10 rw [if_neg (by omega)]
  rw [if_pos (by omega)]

theorem locOf_perm (off : Nat) (h1 : 0x400000 ≤ off) (h2 : off < 0x800000) : locOf off = .perm ((off - 0x400000) / 4) := by
  unfold locOf
  iterate 11 rw [if_neg (by omega)]
  rw [if_pos (by omega)]

theorem locOf_reserved (off : Nat)
    (h : off = 0x0C ∨ 0x28 ≤ off ∧ off < 0x100000 ∨ 0x300000 ≤ off ∧ off < 0x400000) : locOf off = .reserved := by
  unfold locOf
  iterate 12 rw [if_neg (by omega)]

/-- A buffer write of the bus: it changes memory alone, keeps its form and its range, and touches the four bytes of its
offset at most. -/
def BufferWrite (s : State) (off : Nat) (t : State) : Prop :=
  ∃ m, t = s.setMem m ∧ (s.mem.wf = true → m.wf = true) ∧
    (s.mem.all (fun c => isBufferByte s.nmax c.1) = true → m.all (fun c => isBufferByte s.nmax c.1) = true) ∧
    ∀ a, a < off ∨ off + 4 ≤ a → m.read? a = s.mem.read? a

theorem writeLane_mem (s : State) (base j : Nat) (b : Byte) (hb : base = srcBase ∨ base = dstBase) :
    ∃ m, s.writeLane base j b = s.setMem m ∧ (s.mem.wf = true → m.wf = true) ∧
      (s.mem.all (fun c => isBufferByte s.nmax c.1) = true → m.all (fun c => isBufferByte s.nmax c.1) = true) ∧
      ∀ a, a ≠ base + j → m.read? a = s.mem.read? a := by
  unfold State.writeLane
  split
  · refine ⟨_, rfl, Memory.wf_write _ _ _, Memory.all_write (isBufferByte s.nmax) _ _ _ ?_, fun a ha => ?_⟩
    · rcases hb with rfl | rfl <;> simp only [isBufferByte, Bool.or_eq_true, Bool.and_eq_true, decide_eq_true_eq] <;> omega
    · exact Memory.read?_write_other _ _ _ _ ha
  · exact ⟨s.mem, rfl, id, id, fun _ _ => rfl⟩

theorem writeWord_bufferWrite (s : State) (base k : Nat) (v : Word) (hb : base = srcBase ∨ base = dstBase) :
    BufferWrite s (base + 4 * k) (s.writeWord base k v) := by
  obtain ⟨m1, e1, w1, b1, r1⟩ := writeLane_mem s base (4 * k) (laneOf v 0) hb
  obtain ⟨m2, e2, w2, b2, r2⟩ := writeLane_mem (s.setMem m1) base (4 * k + 1) (laneOf v 1) hb
  obtain ⟨m3, e3, w3, b3, r3⟩ := writeLane_mem (s.setMem m2) base (4 * k + 2) (laneOf v 2) hb
  obtain ⟨m4, e4, w4, b4, r4⟩ := writeLane_mem (s.setMem m3) base (4 * k + 3) (laneOf v 3) hb
  refine ⟨m4, ?_, fun h => w4 (w3 (w2 (w1 h))), fun h => b4 (b3 (b2 (b1 h))), fun a ha => ?_⟩
  · unfold State.writeWord; rw [e1, e2]
    exact (congrArg (fun x => State.writeLane x base (4 * k + 3) (laneOf v 3)) e3).trans e4
  · rw [r4 a (by omega)]
    exact (r3 a (by omega)).trans ((r2 a (by omega)).trans (r1 a (by omega)))

theorem writePerm_bufferWrite (s : State) (i : Nat) (v : Word) : BufferWrite s (permBase + 4 * i) (s.writePerm i v) := by
  unfold State.writePerm
  split
  · refine ⟨_, rfl, Memory.wf_writeBytes _ _ _, Memory.all_writeBytes (isBufferByte s.nmax) _ _ _ ?_, fun a ha => ?_⟩
    · intro j h1 h2
      simp only [bytesOfWord, List.length_cons, List.length_nil] at h2
      simp only [isBufferByte, Bool.or_eq_true, Bool.and_eq_true, decide_eq_true_eq]; omega
    · rw [Memory.read?_writeBytes, if_neg]; simp only [bytesOfWord, List.length_cons, List.length_nil]; omega
  · exact ⟨s.mem, rfl, id, id, fun _ _ => rfl⟩

theorem writeWord_tail (s : State) (base k : Nat) (v : Word) (h : s.nmax ≤ 4 * k) : s.writeWord base k v = s := by
  have lane : ∀ j b, 4 * k ≤ j → s.writeLane base j b = s := fun j b hj => if_neg (by omega)
  rw [State.writeWord, lane _ _ (by omega), lane _ _ (by omega), lane _ _ (by omega), lane _ _ (by omega)]

theorem writePerm_tail (s : State) (i : Nat) (v : Word) (h : s.nmax ≤ i) : s.writePerm i v = s := if_neg (by omega)

/-- A write that is not dropped finds the block IDLE, or, in a window, a word at or beyond NMAX. -/
theorem idle_or_tail {b p : Bool} (h : ¬(b && p) = true) : b = false ∨ p = false := by
  rwa [Bool.not_eq_true, Bool.and_eq_false_iff] at h

/-- All that an aligned write can do (R65). -/
theorem memWrite_cases (s : State) (off : Nat) (v : Word) (latency : Nat) (ha : off % 4 = 0) :
    (s.busy = true ∧ (locOf off).isProtected s.nmax = true ∧ s.memWrite off v latency = s.dropWrite) ∨
    (s.memWrite off v latency = s) ∨
    (s.busy = false ∧ off = Reg.offset .cmd ∧ s.memWrite off v latency = s.accept v latency) ∨
    (off = Reg.offset .status ∧ s.memWrite off v latency = s.writeStatus v) ∨
    (s.busy = false ∧ off = Reg.offset .len ∧ s.memWrite off v latency = s.setLen v) ∨
    (s.busy = false ∧ off = Reg.offset .first ∧ s.memWrite off v latency = s.setFirst v) ∨
    (off = Reg.offset .irqEn ∧ s.memWrite off v latency = s.setIrqEn (v.setWidth 2)) ∨
    (s.busy = false ∧ BufferWrite s off (s.memWrite off v latency)) := by
  by_cases hd : (s.busy && (locOf off).isProtected s.nmax) = true
  · have h := hd
    rw [Bool.and_eq_true] at h
    exact Or.inl ⟨h.1, h.2, by simp only [State.memWrite, hd, if_true]⟩
  have e : s.memWrite off v latency = match locOf off with
      | .reg r => s.writeReg v latency r
      | .src k => s.writeWord srcBase k v
      | .dst k => s.writeWord dstBase k v
      | .perm i => s.writePerm i v
      | .reserved => s := by unfold State.memWrite; exact if_neg hd
  rcases locOf_cases off with ⟨r, hl, ho⟩ | ⟨hl, h1, h2⟩ | ⟨hl, h1, h2⟩ | ⟨hl, h1, h2⟩ | hl <;> rw [e] <;> rw [hl] at hd ⊢
  · subst ho
    cases r <;> simp_all [State.writeReg, Loc.isProtected]
  · rcases idle_or_tail hd with hb | ht
    case inr => exact Or.inr (Or.inl (writeWord_tail s srcBase _ v (not_lt.mp (of_decide_eq_false ht))))
    have hk : srcBase + 4 * ((off - srcBase) / 4) = off := by simp only [srcBase] at *; omega
    have hw := writeWord_bufferWrite s srcBase ((off - srcBase) / 4) v (Or.inl rfl)
    rw [hk] at hw
    simp only [hb, hw, and_self, or_true]
  · rcases idle_or_tail hd with hb | ht
    case inr => exact Or.inr (Or.inl (writeWord_tail s dstBase _ v (not_lt.mp (of_decide_eq_false ht))))
    have hk : dstBase + 4 * ((off - dstBase) / 4) = off := by simp only [dstBase] at *; omega
    have hw := writeWord_bufferWrite s dstBase ((off - dstBase) / 4) v (Or.inr rfl)
    rw [hk] at hw
    simp only [hb, hw, and_self, or_true]
  · rcases idle_or_tail hd with hb | ht
    case inr => exact Or.inr (Or.inl (writePerm_tail s _ v (not_lt.mp (of_decide_eq_false ht))))
    have hk : permBase + 4 * ((off - permBase) / 4) = off := by simp only [permBase] at *; omega
    have hw := writePerm_bufferWrite s ((off - permBase) / 4) v
    rw [hk] at hw
    simp only [hb, hw, and_self, or_true]
  · exact Or.inr (Or.inl rfl)

/-- All that an aligned write can do while BUSY, STATUS and IRQ_EN apart: it is dropped with OVR, or it does nothing. -/
theorem memWrite_busy (s : State) (off : Nat) (v : Word) (latency : Nat) (ha : off % 4 = 0) (hb : s.busy = true)
    (h : off ≠ Reg.offset .status) (h' : off ≠ Reg.offset .irqEn) :
    s.memWrite off v latency = if (locOf off).isProtected s.nmax then s.dropWrite else s := by
  by_cases hp : (locOf off).isProtected s.nmax = true
  · rw [if_pos hp, State.memWrite, hb, hp]; rfl
  · rw [if_neg hp]
    rcases memWrite_cases s off v latency ha with
      ⟨-, p, -⟩ | e | ⟨b, -⟩ | ⟨o, -⟩ | ⟨b, -⟩ | ⟨b, -⟩ | ⟨o, -⟩ | ⟨b, -⟩
    · exact absurd p hp
    · exact e
    · rw [hb] at b; cases b
    · exact absurd o h
    · rw [hb] at b; cases b
    · rw [hb] at b; cases b
    · exact absurd o h'
    · rw [hb] at b; cases b

/-- What no write can change: the parameters, FIRST_OUT, the schedule, the response, the model's counters. -/
theorem memWrite_frame (s : State) (off : Nat) (v : Word) (latency : Nat) (ha : off % 4 = 0) :
    (s.memWrite off v latency).params = s.params ∧ (s.memWrite off v latency).firstOut = s.firstOut ∧
    (s.memWrite off v latency).inputs = s.inputs ∧ (s.memWrite off v latency).response = s.response ∧
    (s.memWrite off v latency).draws = s.draws ∧ (s.memWrite off v latency).resets = s.resets := by
  rcases memWrite_cases s off v latency ha with ⟨-, -, e⟩ | e | ⟨-, -, e⟩ | ⟨-, e⟩ | ⟨-, -, e⟩ | ⟨-, -, e⟩ | ⟨-, e⟩ | ⟨-, m, e, -⟩ <;>
    rw [e]
  · exact ⟨rfl, rfl, rfl, rfl, rfl, rfl⟩
  · exact ⟨rfl, rfl, rfl, rfl, rfl, rfl⟩
  · rcases accept_cases s v latency with ⟨e, -, h⟩ | ⟨i, -, h⟩ <;> rw [h] <;> exact ⟨rfl, rfl, rfl, rfl, rfl, rfl⟩
  all_goals exact ⟨rfl, rfl, rfl, rfl, rfl, rfl⟩

/-- What a request does besides its response: nothing, or one aligned write. -/
theorem applyRequest_cases (s : State) (r : Request) (latency : Nat) :
    (s.applyRequest r latency = s) ∨
    (∃ v, r.kind = .write v ∧ r.isAligned = true ∧ r.offset.toNat % 4 = 0 ∧
      s.applyRequest r latency = s.memWrite r.offset.toNat v latency) := by
  unfold State.applyRequest
  split
  · split
    · exact Or.inl rfl
    · refine Or.inr ⟨_, ‹_›, ‹_›, ?_, rfl⟩
      have h := ‹r.isAligned = true›
      simp only [Request.isAligned, Bool.and_eq_true, decide_eq_true_eq] at h
      exact h.2
  · exact Or.inl rfl

theorem isAligned_of (r : Request) (hs : r.size = .four) (ho : r.offset.toNat % 4 = 0) : r.isAligned = true := by
  simp only [Request.isAligned, hs, ho, decide_true, Bool.and_self]

/-- An aligned write as one request: the write, its response, and the count. -/
theorem request_write (s : State) (r : Request) (v : Word) (latency : Nat) (hk : r.kind = .write v)
    (hs : r.size = .four) (ho : r.offset.toNat % 4 = 0) :
    s.request r latency =
      ((s.memWrite r.offset.toNat v latency).setResponse (some { rdata := none, err := false })).setDraws (s.draws + 1) := by
  have ha := isAligned_of r hs ho
  unfold State.request State.applyRequest State.respond
  simp only [ha, hk, if_true]
  rfl

/-- An aligned read as one request: its response and the count. -/
theorem request_read (s : State) (r : Request) (latency : Nat) (hk : r.kind = .read)
    (hs : r.size = .four) (ho : r.offset.toNat % 4 = 0) :
    s.request r latency =
      (s.setResponse (some { rdata := some (s.memRead s.nextAny r.offset.toNat), err := false })).setDraws (s.draws + 1) := by
  have ha := isAligned_of r hs ho
  unfold State.request State.applyRequest State.respond
  simp only [ha, hk, if_true]
  rfl

/-- The byte lanes of a word of four bytes (R63). -/
theorem laneOf_wordOfBytes (b0 b1 b2 b3 : Byte) (j : Nat) (hj : j < 4) :
    laneOf (wordOfBytes b0 b1 b2 b3) j = [b0, b1, b2, b3].getD j 0#8 := by
  apply BitVec.eq_of_getLsbD_eq
  intro i hi
  simp only [laneOf, BitVec.getLsbD_extractLsb', wordOfBytes, BitVec.getLsbD_append, hi]
  interval_cases j
  · simp [hi]
  · simp [show ¬ 8 + i < 8 by omega, hi]
  · simp [show ¬ 16 + i < 8 by omega, show ¬ 16 + i - 8 < 8 by omega, show 16 + i - 8 - 8 = i by omega, hi]
  · simp [show ¬ 24 + i < 8 by omega, show ¬ 24 + i - 8 < 8 by omega, show ¬ 24 + i - 8 - 8 < 8 by omega,
      show 24 + i - 8 - 8 - 8 = i by omega]

/-- A CMD write in the IDLE phase is an acceptance (R24, R101). -/
theorem applyRequest_cmdWrite (s : State) (w : Word) (latency : Nat) (h : s.engine = .idle) :
    s.applyRequest (cmdWrite w) latency = s.accept w latency := by
  have hb : s.busy = false := by simp [State.busy, h, Engine.isBusy]
  have ho : (cmdWrite w).offset.toNat = Reg.offset .cmd := rfl
  have ha : (cmdWrite w).isAligned = true := by simp [cmdWrite, Request.isAligned, Reg.offset]
  simp only [State.applyRequest, ha, if_true, ho]
  show s.memWrite (Reg.offset .cmd) w latency = _
  simp only [State.memWrite, locOf_reg, hb, Bool.false_and, Bool.false_eq_true, if_false, State.writeReg]

end Sys2Proof.Machine
end

