-- ==== Sys2Proof/Laws/Step.lean ====
section
/-! SUPPORT. What a cycle and a step can do, once for every proof about steps. -/

namespace Sys2Proof.Machine

/-- A cycle: nothing for an IDLE block, the remaining time going down, or the completion step (R103, R104). -/
theorem passCycle_cases (s t : State) (h : s.passCycle = .next t) :
    (s.engine = .idle ∧ t = s) ∨
    (∃ i k, s.engine = .busy i k ∧ 1 < k ∧ t = s.enterBusy i (k - 1)) ∨
    (∃ i k, s.engine = .busy i k ∧ k ≤ 1 ∧ exec i s = .next t) := by
  unfold State.passCycle at h
  split at h
  · exact Or.inl ⟨‹_›, by simpa using h.symm⟩
  · split at h
    · exact Or.inr (Or.inr ⟨_, _, ‹_›, ‹_›, h⟩)
    · refine Or.inr (Or.inl ⟨_, _, ‹_›, by omega, by simpa using h.symm⟩)

/-- A step that answers a next state took a cycle, a request or a reset. -/
theorem step_cases (s t : State) (h : step s = .next t) :
    (s.inputs = [] ∧ s.passCycle = .next t) ∨
    (∃ rest, s.inputs = .cycle :: rest ∧ (s.setInputs rest).passCycle = .next t) ∨
    (∃ r latency rest, s.inputs = .request r latency :: rest ∧ t = (s.setInputs rest).request r latency) ∨
    (∃ rest, s.inputs = .reset :: rest ∧ t = (s.setInputs rest).resetBlock) := by
  unfold step at h
  split at h
  · exact Or.inl ⟨‹_›, h⟩
  · rename_i x rest hx
    cases x with
    | request r latency => exact Or.inr (Or.inr (Or.inl ⟨r, latency, rest, hx, by simpa [State.takeInput] using h.symm⟩))
    | cycle => exact Or.inr (Or.inl ⟨rest, hx, h⟩)
    | reset => exact Or.inr (Or.inr (Or.inr ⟨rest, hx, by simpa [State.takeInput] using h.symm⟩))
    | resetDuring r => simp [State.takeInput] at h

/-- A step on a scheduled request. -/
theorem step_request (s : State) (r : Request) (latency : Nat) (rest : List Input)
    (h : s.inputs = .request r latency :: rest) : step s = .next ((s.setInputs rest).request r latency) := by
  unfold step; rw [h]; rfl

/-- A step on a scheduled cycle. -/
theorem step_cycle (s : State) (rest : List Input) (h : s.inputs = .cycle :: rest) :
    step s = (s.setInputs rest).passCycle := by
  unfold step; rw [h]; rfl

/-- A step with nothing scheduled. -/
theorem step_nothing (s : State) (h : s.inputs = []) : step s = s.passCycle := by
  unfold step; rw [h]

/-- Running on from a step that answers a next state. -/
theorem runSteps_succ (k : Nat) (s t : State) (h : step s = .next t) : runSteps (k + 1) s = runSteps k t := by
  simp only [runSteps, h]

@[simp] theorem runSteps_zero (s : State) : runSteps 0 s = .next s := rfl

theorem runSteps_one (s t : State) (h : step s = .next t) : runSteps 1 s = .next t := by
  rw [runSteps_succ 0 s t h, runSteps_zero]

/-- No cycle faults or refuses: every instruction answers a next state. -/
theorem passCycle_next (s : State) : ∃ t, s.passCycle = .next t := by
  unfold State.passCycle
  split
  · exact ⟨_, rfl⟩
  · split
    · rcases exec_cases ‹Instr› s with ⟨e, -, h⟩ | ⟨-, h⟩ <;> exact ⟨_, h⟩
    · exact ⟨_, rfl⟩

end Sys2Proof.Machine
end

