-- ==== Sys2Proof/Laws/Invariant.lean ====
section
/-! SUPPORT. The invariant read as propositions, clause by clause, and when two states share it. -/

namespace Sys2Proof.Machine

/-- The clauses of the invariant. -/
theorem inv_iff (s : State) :
    s.inv = true ↔ s.params.legal = true ∧ s.mem.wf = true ∧
      s.mem.all (fun c => isBufferByte s.nmax c.1) = true ∧ s.status.consistent = true ∧ s.pendingValid = true := by
  simp only [State.inv, Bool.and_eq_true, and_assoc]

/-- What a valid pending command means (R24, R25, R34, R104). -/
theorem pendingValid_busy (s : State) (i : Instr) (k : Nat) (h : s.engine = .busy i k) :
    s.pendingValid = true ↔ 1 ≤ k ∧ s.status.done = false ∧ s.status.err = false ∧ s.status.errcode = 0#4 ∧
      decode s.cmd = .instr i ∧ operandError i s = none := by
  simp only [State.pendingValid, h]
  simp [and_assoc]

theorem pendingValid_idle (s : State) (h : s.engine = .idle) : s.pendingValid = true := by
  simp only [State.pendingValid, h]

/-- The parameter bounds as numbers (R8). -/
theorem legal_iff (p : Params) :
    p.legal = true ↔ 1 ≤ p.nmax ∧ p.nmax ≤ 1048576 ∧ p.base % 8388608 = 0 := by
  simp only [Params.legal, Bool.and_eq_true, decide_eq_true_eq, and_assoc]

/-- The invariant reads no field of the model's own, no IRQ_EN and no FIRST_OUT. -/
theorem inv_congr (s t : State) (h : s.inv = true) (hp : t.params = s.params) (hm : t.mem = s.mem)
    (hst : t.status = s.status) (he : t.engine = s.engine) (hl : t.len = s.len) (hf : t.first = s.first)
    (hc : t.cmd = s.cmd) : t.inv = true := by
  rw [inv_iff] at *
  obtain ⟨h1, h2, h3, h4, h5⟩ := h
  have hn : t.nmax = s.nmax := congrArg Params.nmax hp
  refine ⟨by rw [hp]; exact h1, by rw [hm]; exact h2, by rw [hm, hn]; exact h3, by rw [hst]; exact h4, ?_⟩
  cases hE : s.engine with
  | idle => exact pendingValid_idle t (by rw [he, hE])
  | busy i k =>
    rw [pendingValid_busy s i k hE] at h5
    rw [pendingValid_busy t i k (by rw [he, hE]), hst, hc, operandError_congr i t s hl hf hp]
    exact h5

end Sys2Proof.Machine
end

