-- ==== Sys2Proof/Laws/PerInstr.lean ====
section
/-! SUPPORT. Statements about every instruction as syntax, one lemma per constructor. -/

namespace Sys2Proof.Laws.Encoding

/-- The instruction's word decodes to it, its fields are well-formed, and so is the instruction (R80 to R88). -/
def Statement (i : Instr) : Prop :=
  decode (encode i) = .instr i ∧ (fieldsOf (encode i)).wellFormed = true ∧ i.wellFormed = true

theorem nop : Statement .nop := by unfold Statement; decide
theorem sort : Statement .sort := by unfold Statement; decide
theorem sortCut : Statement .sortCut := by unfold Statement; decide
theorem bwtf : Statement .bwtf := by unfold Statement; decide
theorem bwtfCut : Statement .bwtfCut := by unfold Statement; decide
theorem bwti : Statement .bwti := by unfold Statement; decide
theorem mtfe : Statement .mtfe := by unfold Statement; decide
theorem mtfd : Statement .mtfd := by unfold Statement; decide

end Sys2Proof.Laws.Encoding
end

