-- ==== Sys2Proof/Tests/Slice0.lean ====
section
/-! SUPPORT. The model's own tests: ill-formed fields refused, words written out from 30_encoding.md, one-step vectors of
95_test_vectors.md, and a state and operands that meet the hypotheses of each statement. -/

namespace Sys2Proof.Tests

open Sys2Proof Sys2Proof.Machine

/-! ## Small states -/

/-- An IDLE block with NMAX = 16, the given SRC bytes and LEN = their number. -/
def demo (bytes : List Byte) : State :=
  (({ State.reset with params := { nmax := 16, base := 0x800000 } } : State).setLen (BitVec.ofNat 32 bytes.length)).setMem
    (Memory.writeBytes [] srcBase bytes)

/-- The bytes of "BANANA". -/
def banana : List Byte := [66#8, 65#8, 78#8, 65#8, 78#8, 65#8]

/-- `demo` about to take the given inputs. -/
def demoWith (inputs : List Input) : State := (demo banana).setInputs inputs

/-- `demoWith` with a SORT in its BUSY phase. -/
def busyWith (remaining : Nat) (inputs : List Input) : State :=
  ((demoWith inputs).setCmd 0x00000001#32).setEngine (.busy .sort remaining)

/-- The next state of a step, none if it has none. -/
def next? (x : Host.Outcome State Fault Refusal) : Option State :=
  match x with
  | .next t => some t
  | .fault _ => none
  | .refused _ => none

/-- One step of a state with a command word placed. -/
def ran (w : Nat) (s : State) : Option State := next? (step (s.withFetchWord 32 w))

/-- One step with one request. -/
def asked (r : Request) (s : State) : Option State := next? (step (s.setInputs [.request r 0]))

/-- `PERM[0..k-1]`. -/
def perms (k : Nat) (t : State) : List Word := (List.range k).map t.permEntry

/-- `DST[0..k-1]`. -/
def dsts (k : Nat) (t : State) : List Byte := (List.range k).map t.dstByte

/-- What a read of STATUS returns. -/
def status (t : State) : Word := statusWord t.busy t.status

/-- A 4-byte request. -/
def readAt (off : Nat) : Request := { kind := .read, offset := BitVec.ofNat 23 off, size := .four }

/-- A 4-byte write. -/
def writeAt (off : Nat) (v : Word) : Request := { kind := .write v, offset := BitVec.ofNat 23 off, size := .four }

/-! ## Ill-formed fields are refused (R81, R82, R83) -/

theorem test_smoke_op_reserved :
    ({ op := 6#4, rsv0 := 0#4, cut := 0#1, rsv1 := 0#23 } : CmdFields).opDefined = false ∧
    ({ op := 6#4, rsv0 := 0#4, cut := 0#1, rsv1 := 0#23 } : CmdFields).wellFormed = false := by decide

theorem test_smoke_rsv0 :
    ({ op := 1#4, rsv0 := 1#4, cut := 0#1, rsv1 := 0#23 } : CmdFields).reservedZero = false ∧
    ({ op := 1#4, rsv0 := 1#4, cut := 0#1, rsv1 := 0#23 } : CmdFields).wellFormed = false := by decide

theorem test_smoke_rsv1 :
    ({ op := 1#4, rsv0 := 0#4, cut := 0#1, rsv1 := 0x400000#23 } : CmdFields).reservedZero = false ∧
    ({ op := 1#4, rsv0 := 0#4, cut := 0#1, rsv1 := 0x400000#23 } : CmdFields).wellFormed = false := by decide

theorem test_smoke_cut :
    ({ op := 4#4, rsv0 := 0#4, cut := 1#1, rsv1 := 0#23 } : CmdFields).cutLegal = false ∧
    ({ op := 4#4, rsv0 := 0#4, cut := 1#1, rsv1 := 0#23 } : CmdFields).wellFormed = false := by decide

/-! ## Words written out bit by bit from R80 to R82: RSV1 31:9, CUT 8, RSV0 7:4, OP 3:0 -/

theorem test_decode_nop : decode 0b00000000000000000000000000000000#32 = .instr .nop := by decide
theorem test_decode_sort : decode 0b00000000000000000000000000000001#32 = .instr .sort := by decide
theorem test_decode_sortCut : decode 0b00000000000000000000000100000001#32 = .instr .sortCut := by decide
theorem test_decode_bwtf : decode 0b00000000000000000000000000000010#32 = .instr .bwtf := by decide
theorem test_decode_bwtfCut : decode 0b00000000000000000000000100000010#32 = .instr .bwtfCut := by decide
theorem test_decode_bwti : decode 0b00000000000000000000000000000011#32 = .instr .bwti := by decide
theorem test_decode_mtfe : decode 0b00000000000000000000000000000100#32 = .instr .mtfe := by decide
theorem test_decode_mtfd : decode 0b00000000000000000000000000000101#32 = .instr .mtfd := by decide

/-- The ten reserved OP values (R81), alone and with CUT (R85: ILLEGAL_OP first). -/
theorem test_decode_reserved_op :
    ∀ v ∈ [6, 7, 8, 9, 10, 11, 12, 13, 14, 15],
      decode (BitVec.ofNat 32 v) = .error .illegalOp ∧ decode (BitVec.ofNat 32 (v + 256)) = .error .illegalOp := by decide

/-- V-CTL-8 to V-CTL-12, and CUT with MTFD (R82). -/
theorem test_decode_reserved_fields :
    ∀ v ∈ [0x00000011, 0x80000001, 0x00000104, 0x00000100, 0x00000103, 0x00000105, 0x00000201],
      decode (BitVec.ofNat 32 v) = .error .rsvdField := by decide

/-- The opcode table's words as the table numbers them. -/
theorem test_table_words :
    [0x0, 0x1, 0x101, 0x2, 0x102, 0x3, 0x4, 0x5, 0x6].map (decodeTableWord 32) =
      [some .nop, some .sort, some .sortCut, some .bwtf, some .bwtfCut, some .bwti, some .mtfe, some .mtfd, none] := by
  decide

/-- Every instruction of the table runs as the first one after reset: CMD holds its word, and the block is IDLE with
DONE alone set. -/
theorem test_first_instruction_after_reset :
    ∀ w ∈ [0x0, 0x1, 0x101, 0x2, 0x102, 0x3, 0x4, 0x5],
      (ran w State.reset).map (fun t => (t.cmd, status t)) = some (BitVec.ofNat 32 w, 0x00000002#32) := by decide

/-! ## One step per command, expected values from 95_test_vectors.md section 2 -/

/-- V-CTL-1 -/
theorem test_nop_ignores_len :
    (ran 0x0 ((demo banana).setLen 0xFFFFFFFF#32)).map (fun t => (status t, t.mem == (demo banana).mem)) =
      some (0x00000002#32, true) := by decide

/-- V-SORT-1 -/
theorem test_sort_banana :
    (ran 0x1 (demo banana)).map (perms 6) = some [5#32, 3#32, 1#32, 0#32, 4#32, 2#32] := by decide

/-- V-SORT-10: bytes are unsigned -/
theorem test_sort_unsigned : (ran 0x1 (demo [0x80#8, 0x01#8])).map (perms 2) = some [1#32, 0#32] := by decide

/-- V-CUT-1 -/
theorem test_sortCut_banana :
    (ran 0x101 (demo banana)).map (perms 6) = some [5#32, 1#32, 3#32, 0#32, 4#32, 2#32] := by decide

/-- V-CUT-3 -/
theorem test_sortCut_aba : (ran 0x101 (demo [65#8, 66#8, 65#8])).map (perms 3) = some [0#32, 2#32, 1#32] := by decide

/-- V-BWTF-2 -/
theorem test_bwtf_banana :
    (ran 0x2 (demo banana)).map (fun t => (t.firstOut, dsts 6 t, perms 6 t)) =
      some (3#32, [78#8, 78#8, 66#8, 65#8, 65#8, 65#8], [5#32, 3#32, 1#32, 0#32, 4#32, 2#32]) := by decide

/-- V-BWTF-14: FIRST_OUT alone is written for the empty input -/
theorem test_bwtf_empty :
    (ran 0x2 ((demo []).setFirstOut 7#32)).map (fun t => (t.firstOut, t.mem, status t)) =
      some (0#32, [], 0x00000002#32) := by decide

/-- V-BWTF-3 -/
theorem test_bwtfCut_banana :
    (ran 0x102 (demo banana)).map (fun t => (t.firstOut, dsts 6 t)) =
      some (3#32, [78#8, 66#8, 78#8, 65#8, 65#8, 65#8]) := by decide

/-- V-BWTF-6 -/
theorem test_bwtfCut_aba :
    (ran 0x102 (demo [65#8, 66#8, 65#8])).map (fun t => (t.firstOut, dsts 3 t)) =
      some (0#32, [65#8, 66#8, 65#8]) := by decide

/-- V-BWTI-2 -/
theorem test_bwti_banana :
    (ran 0x3 ((demo [78#8, 78#8, 66#8, 65#8, 65#8, 65#8]).setFirst 3#32)).map (dsts 6) = some banana := by decide

/-- V-BWTI-8: two cycles of `next` -/
theorem test_bwti_cycles : (ran 0x3 ((demo [65#8, 66#8]).setFirst 1#32)).map (dsts 2) = some [66#8, 66#8] := by decide

/-- V-MTFE-4 -/
theorem test_mtfe_runs :
    (ran 0x4 (demo [78#8, 78#8, 66#8, 65#8, 65#8, 65#8])).map (dsts 6) =
      some [78#8, 0#8, 67#8, 67#8, 0#8, 0#8] := by decide

/-- V-MTFE-7 -/
theorem test_mtfe_largest : (ran 0x4 (demo [0xFF#8, 0xFF#8, 0x00#8])).map (dsts 3) = some [255#8, 0#8, 1#8] := by decide

/-- V-MTFD-6 -/
theorem test_mtfd_largest :
    (ran 0x5 (demo [255#8, 255#8, 1#8, 1#8, 1#8])).map (dsts 5) = some [255#8, 254#8, 255#8, 254#8, 255#8] := by decide

/-- V-MTFD-7 -/
theorem test_mtfd_twos : (ran 0x5 (demo [2#8, 2#8, 2#8])).map (dsts 3) = some [2#8, 1#8, 0#8] := by decide

/-! ## The command register, STATUS, the bus, hazards and reset: one step each -/

/-- V-CTL-7, V-CTL-8 -/
theorem test_cmd_illegal_then_reserved :
    (asked (cmdWrite 0x00000106#32) (demo banana)).map (fun t => (status t, t.cmd)) = some (0x00000106#32, 0x00000106#32) ∧
    (asked (cmdWrite 0x00000011#32) (demo banana)).map status = some 0x00000206#32 := by decide

/-- V-CTL-13, V-CTL-14, V-CTL-15: LEN against NMAX, and LEN_RANGE before FIRST_RANGE -/
theorem test_cmd_len_range :
    (asked (cmdWrite 0x00000001#32) ((demo banana).setLen 17#32)).map status = some 0x00000306#32 ∧
    (asked (cmdWrite 0x00000001#32) ((demo banana).setLen 16#32)).map status = some 0x00000001#32 ∧
    (asked (cmdWrite 0x00000003#32) (((demo banana).setLen 17#32).setFirst 0xFFFFFFFF#32)).map status =
      some 0x00000306#32 := by decide

/-- V-BWTI-15 and V-BWTI-14: FIRST = LEN fails, and FIRST is not checked for LEN = 0 -/
theorem test_cmd_first_range :
    (asked (cmdWrite 0x00000003#32) ((demo banana).setFirst 6#32)).map status = some 0x00000406#32 ∧
    (asked (cmdWrite 0x00000003#32) ((demo []).setFirst 0xFFFFFFFF#32)).map status = some 0x00000001#32 := by decide

/-- V-CTL-2 -/
theorem test_status_write :
    (asked (writeAt 0x14 0x0000000A#32)
      ((demo banana).setStatus { done := true, err := true, ovr := true, errcode := 4#4 })).map status =
      some 0x00000404#32 := by decide

/-- V-BUS-5, V-BUS-6: a bus error changes nothing -/
theorem test_bus_error :
    (asked { kind := .write 9#32, offset := 0x18#23, size := .two } (busyWith 3 [])).map
      (fun t => (t.len, status t, t.response)) = some (6#32, 0x00000001#32, some { rdata := none, err := true }) ∧
    (asked (writeAt 0x100002 9#32) (demo banana)).map (fun t => (t.mem == (demo banana).mem, t.response)) =
      some (true, some { rdata := none, err := true }) := by decide

/-- V-BUS-10, V-BUS-11: little-endian lanes, and lanes beyond NMAX ignored -/
theorem test_bus_lanes :
    (asked (writeAt 0x100000 0x44434241#32) (demo [])).map (fun t => (List.range 4).map t.srcByte) =
      some [0x41#8, 0x42#8, 0x43#8, 0x44#8] ∧
    (asked (writeAt 0x100004 0x44434241#32) ({ demo [] with params := { nmax := 6, base := 0 } })).map
      (fun t => (t.mem, t.memRead 0#32 0x100004)) =
      some ([(0x100004, 0x41#8), (0x100005, 0x42#8)], 0x00004241#32) := by decide

/-- V-BUS-13, V-HAZ-5 -/
theorem test_irqEn_write :
    (asked (writeAt 0x24 0xFFFFFFFF#32) (busyWith 3 [])).map (fun t => t.memRead 0#32 0x24) = some 0x00000003#32 := by
  decide

/-- V-HAZ-1 -/
theorem test_len_write_while_busy :
    (asked (writeAt 0x18 1#32) (busyWith 3 [])).map (fun t => (t.len, status t)) = some (6#32, 0x00000009#32) := by decide

/-- R30, D31: a write while BUSY to a word beyond NMAX changes nothing and sets no OVR, and one to the last word of the
buffer sets OVR (R240). With NMAX = 14 the word at 12 holds two bytes of the buffer. -/
theorem test_tail_write_while_busy :
    (asked (writeAt 0x100010 1#32) (busyWith 3 [])).map (fun t => (t.mem == (busyWith 3 []).mem, status t)) =
      some (true, 0x00000001#32) ∧
    (asked (writeAt 0x10000C 1#32) { busyWith 3 [] with params := { nmax := 14, base := 0 } }).map
      (fun t => (t.mem == (busyWith 3 []).mem, status t)) = some (true, 0x00000009#32) ∧
    (asked (writeAt 0x400040 1#32) (busyWith 3 [])).map status = some 0x00000001#32 := by decide

/-- V-RST-1 -/
theorem test_reset_while_busy :
    (next? (step (busyWith 3 [.reset]))).map (fun t => (status t, t.cmd, t.len, t.engine)) =
      some (0x00000000#32, 0#32, 0#32, Engine.idle) := by decide

/-- R233: a request that overlaps reset stops the model. -/
theorem test_request_during_reset : next? (step (demoWith [.resetDuring (readAt 0)])) = none := by decide

/-! ## A state and operands that meet the hypotheses of each statement -/

theorem witness_DecodeChecksInOrder_illegal :
    6 ≤ ((0x00000106#32 : Word).extractLsb' 0 4).toNat ∧ 6 ≤ ((0x0000000F#32 : Word).extractLsb' 0 4).toNat := by decide

theorem witness_DecodeChecksInOrder_reserved (w : Word) (h : w = 0x00000011#32 ∨ w = 0x80000001#32) :
    (w.extractLsb' 0 4).toNat < 6 ∧ (w.extractLsb' 4 4 ≠ 0#4 ∨ w.extractLsb' 9 23 ≠ 0#23) := by
  rcases h with rfl | rfl <;> decide

theorem witness_DecodeChecksInOrder_cut (w : Word) (h : w = 0x00000100#32 ∨ w = 0x00000105#32) :
    (w.extractLsb' 0 4).toNat < 6 ∧ w.extractLsb' 4 4 = 0#4 ∧ w.extractLsb' 9 23 = 0#23 ∧
    w.getLsbD 8 = true ∧ w.extractLsb' 0 4 ≠ 1#4 ∧ w.extractLsb' 0 4 ≠ 2#4 := by
  rcases h with rfl | rfl <;> decide

theorem witness_DecodeChecksInOrder_instr (w : Word) (h : w = 0x00000005#32 ∨ w = 0x00000101#32 ∨ w = 0x00000102#32) :
    (w.extractLsb' 0 4).toNat < 6 ∧ w.extractLsb' 4 4 = 0#4 ∧ w.extractLsb' 9 23 = 0#23 ∧
    (w.getLsbD 8 = true → w.extractLsb' 0 4 = 1#4 ∨ w.extractLsb' 0 4 = 2#4) := by
  rcases h with rfl | rfl | rfl <;> decide

theorem witness_EachInstructionHasOneWord : ∀ i ∈ [Instr.nop, .sort, .sortCut, .bwtf, .bwtfCut, .bwti, .mtfe, .mtfd],
    i.wellFormed = true ∧ decode (encode i) = .instr i := by decide

/-- Each case at its boundary: OP 6; CUT with BWTI; LEN = NMAX + 1; FIRST = LEN; nothing failing at LEN = NMAX. -/
theorem witness_FirstFailingCheckIsReported :
    validate 0x00000006#32 (demo banana) = .error .illegalOp ∧
    validate 0x00000103#32 (demo banana) = .error .rsvdField ∧
    validate 0x00000001#32 ((demo banana).setLen 17#32) = .error .lenRange ∧
    validate 0x00000003#32 ((demo banana).setFirst 6#32) = .error .firstRange ∧
    validate 0x00000003#32 (((demo banana).setLen 16#32).setFirst 15#32) = .instr .bwti := by decide

theorem witness_CmdWriteWhileIdleIsAccepted :
    (demoWith [.request (cmdWrite 0x2#32) 5]).engine = .idle ∧
    (demoWith [.request (cmdWrite 0x2#32) 5]).inputs = [.request (cmdWrite 0x2#32) 5] ∧
    validate 0x2#32 (demoWith [.request (cmdWrite 0x2#32) 5]) = .instr .bwtf := by decide

theorem witness_FailedCommandWritesNothing :
    (demoWith [.request (cmdWrite 0x7#32) 0]).engine = .idle ∧
    (demoWith [.request (cmdWrite 0x7#32) 0]).inputs = [.request (cmdWrite 0x7#32) 0] ∧
    validate 0x7#32 (demoWith [.request (cmdWrite 0x7#32) 0]) = .error .illegalOp := by decide

/-- Each of the four errors occurs, with its own code; the last clauses then fix `code`. -/
theorem witness_FailedCommandStatusReads :
    (demo banana).engine = .idle ∧
    ((demo banana).accept 0x00000006#32 0).memRead 0#32 0x14 = 0x00000106#32 ∧
    ((demo banana).accept 0x00000100#32 0).memRead 0#32 0x14 = 0x00000206#32 ∧
    (((demo banana).setLen 17#32).accept 0x00000005#32 0).memRead 0#32 0x14 = 0x00000306#32 ∧
    (((demo banana).setFirst 6#32).accept 0x00000003#32 0).memRead 0#32 0x14 = 0x00000406#32 := by decide

/-- Each clause, with a cycle scheduled and with nothing scheduled. -/
theorem witness_StepRunsPendingCommand :
    (∀ l ∈ [[], [Input.cycle]], (demoWith l).inputs = l ∧ (demoWith l).engine = .idle ∧
      (busyWith 1 l).inputs = l ∧ (busyWith 1 l).engine = .busy .sort 1 ∧
      (busyWith 2 l).inputs = l ∧ (busyWith 2 l).engine = .busy .sort 2) := by decide

theorem witness_PlacedWordRunsNext :
    decode 0x00000105#32 = .error .rsvdField ∧ decode 0x00000102#32 = .instr .bwtfCut := by decide

theorem witness_ValidCommandCompletesWithoutError :
    (∀ l ∈ [[], [Input.cycle]], (busyWith 1 l).inv = true ∧ (busyWith 1 l).engine = .busy .sort 1 ∧
      (busyWith 1 l).inputs = l) := by decide

/-- A schedule with requests in between that holds enough cycles, and one that holds none. -/
theorem witness_BusyPhaseEnds :
    (busyWith 2 [.request (readAt 0x14) 0, .cycle, .request (cmdWrite 0#32) 3, .cycle]).engine = .busy .sort 2 ∧
    (∀ x ∈ [Input.request (readAt 0x14) 0, .cycle, .request (cmdWrite 0#32) 3, .cycle],
      x = .cycle ∨ ∃ r latency, x = .request r latency) ∧
    (busyWith 2 [.request (readAt 0x14) 0, .cycle, .request (cmdWrite 0#32) 3, .cycle]).inputs.count .cycle = 2 ∧
    (busyWith 9 []).engine = .busy .sort 9 ∧ (busyWith 9 []).inputs = [] := by
  refine ⟨by decide, ?_, by decide, by decide, by decide⟩
  simp

theorem witness_AcceptedCommandRunsToItsEnd :
    (demoWith [.request (cmdWrite 0x4#32) 3]).engine = .idle ∧
    (demoWith [.request (cmdWrite 0x4#32) 3]).inputs = [.request (cmdWrite 0x4#32) 3] ∧
    validate 0x4#32 (demoWith [.request (cmdWrite 0x4#32) 3]) = .instr .mtfe := by decide

/-- SORT, BWTF and MTF statements: LEN at most NMAX, here at NMAX and at 1, with legal parameters. -/
theorem witness_len_within_nmax :
    (demo banana).params.legal = true ∧ (demo banana).params.nmax = 16 ∧
    ((demo banana).setLen 16#32).len.toNat ≤ (demo banana).params.nmax ∧
    1 ≤ ((demo banana).setLen 1#32).len.toNat ∧ 1 ≤ ((demo banana).setLen 16#32).len.toNat := by decide

theorem witness_empty : (demo []).len = 0#32 ∧ ((demo []).setFirst 0xFFFFFFFF#32).len = 0#32 := by decide

theorem witness_BwtiWritesInverse :
    1 ≤ ((demo banana).setFirst 5#32).len.toNat ∧
    ((demo banana).setFirst 5#32).len.toNat ≤ ((demo banana).setFirst 5#32).params.nmax ∧
    ((demo banana).setFirst 5#32).first.toNat < ((demo banana).setFirst 5#32).len.toNat := by decide

theorem witness_OperandsOutOfRangeFail :
    (((demo banana).setLen 17#32).params.nmax < ((demo banana).setLen 17#32).len.toNat) ∧
    (1 ≤ ((demo banana).setFirst 6#32).len.toNat ∧
      ((demo banana).setFirst 6#32).len.toNat ≤ ((demo banana).setFirst 6#32).params.nmax ∧
      ((demo banana).setFirst 6#32).len.toNat ≤ ((demo banana).setFirst 6#32).first.toNat) := by decide

/-- A range in which every zone has entries: three characters below 'B', one equal, two above. -/
theorem witness_PartitionMakesThreeZones :
    0 < 6 ∧ 6 ≤ [0, 1, 2, 3, 4, 5].length ∧ (partitionAt banana 0 6 0 [0, 1, 2, 3, 4, 5]).lt = 3 ∧
    (partitionAt banana 0 6 0 [0, 1, 2, 3, 4, 5]).gtEnd = 4 := by decide

theorem witness_sorted_ranks : 0 < 5 ∧ 5 < banana.length := by decide

theorem witness_LastColumnIgnoresTies :
    [1, 0].Perm (List.range [7#8, 7#8].length) ∧
    ([1, 0].map (rot [7#8, 7#8])).Pairwise (fun a b => a ≤ b) := by decide

theorem witness_InverseIsTotal : 5 < banana.length ∧ banana ≠ [] := by decide

/-- A block whose SRC and FIRST are what the host copied from the forward transform of "BANANA". -/
theorem witness_BwtRoundTripOnTheBlock :
    (ran 0x2 (demo banana)).map (fun t => (t.firstOut, dsts 6 t, t.params, t.len)) =
      some (((demo [78#8, 78#8, 66#8, 65#8, 65#8, 65#8]).setFirst 3#32).first,
        (List.range 6).map (demo [78#8, 78#8, 66#8, 65#8, 65#8, 65#8]).srcByte,
        (demo [78#8, 78#8, 66#8, 65#8, 65#8, 65#8]).params, (demo [78#8, 78#8, 66#8, 65#8, 65#8, 65#8]).len) := by decide

theorem witness_initial_tables_inverse : Recency.initial.mutuallyInverse := by
  have id_at : ∀ p : Byte, identityTable.getD p.toNat 0#8 = p := by
    intro p
    simp [identityTable, List.getD_eq_getElem?_getD, List.getElem?_range p.isLt]
  refine ⟨by simp [Recency.initial, identityTable], by simp [Recency.initial, identityTable], ?_, ?_⟩ <;>
    intro p <;> simp only [Recency.initial, id_at]

/-- A block whose SRC is what the host copied from the encoding of "BANANA" (V-MTFE-5), and the other way round. -/
theorem witness_MtfRoundTripOnTheBlock :
    (ran 0x4 (demo banana)).map (dsts 6) =
      some ((List.range 6).map (demo [66#8, 66#8, 78#8, 1#8, 1#8, 1#8]).srcByte) ∧
    (ran 0x5 (demo [66#8, 66#8, 78#8, 1#8, 1#8, 1#8])).map (dsts 6) =
      some ((List.range 6).map (demo banana).srcByte) := by decide

theorem witness_RunsEncodeAsZero :
    0 + 1 < [9#8, 9#8].length ∧ [9#8, 9#8].getD (0 + 1) 0#8 = [9#8, 9#8].getD 0 0#8 := by decide

theorem witness_FirstOccurrenceEncodesAsByteAndGreater : 3#8 ∉ [5#8, 1#8, 5#8] := by decide

/-- A wrong size and each wrong alignment, in both phases. -/
theorem witness_BusErrorChangesNothing :
    ({ kind := .read, offset := 0x14#23, size := .one } : Request).size ≠ .four ∧
    ({ kind := .write 0#32, offset := 0x18#23, size := .two } : Request).size ≠ .four ∧
    (∀ off ∈ [0x100001, 0x100002, 0x100003], (readAt off).offset.toNat % 4 ≠ 0) ∧
    (demoWith [.request (readAt 0x100002) 0]).inputs = [.request (readAt 0x100002) 0] := by decide

/-- The first and last word of each window and reserved range, and each register. -/
theorem witness_AlignedReadAnswers :
    (∀ off ∈ [0x100000, 0x1FFFFC], (readAt off).offset.toNat = off ∧ off % 4 = 0 ∧ 0x100000 ≤ off ∧ off < 0x200000) ∧
    (∀ off ∈ [0x200000, 0x2FFFFC], (readAt off).offset.toNat = off ∧ off % 4 = 0 ∧ 0x200000 ≤ off ∧ off < 0x300000) ∧
    (∀ off ∈ [0x400000, 0x7FFFFC], (readAt off).offset.toNat = off ∧ off % 4 = 0 ∧ 0x400000 ≤ off) ∧
    (∀ off ∈ [0x00, 0x04, 0x08, 0x10, 0x14, 0x18, 0x1C, 0x20, 0x24], (readAt off).offset.toNat = off ∧ off % 4 = 0) ∧
    (∀ off ∈ [0x0C, 0x28, 0xFFFFC, 0x300000, 0x3FFFFC], (readAt off).offset.toNat = off ∧ off % 4 = 0 ∧
      (off = 0x0C ∨ 0x28 ≤ off ∧ off < 0x100000 ∨ 0x300000 ≤ off ∧ off < 0x400000)) ∧
    (readAt 0x20).kind = .read ∧ (readAt 0x20).size = .four ∧
    (busyWith 3 [.request (readAt 0x20) 0]).inputs = [.request (readAt 0x20) 0] := by decide

/-- The first and last word of both byte windows. -/
theorem witness_BufferWriteStoresLanes :
    (∀ p ∈ [(0x100000, 0x100000), (0x100000, 0x1FFFFC), (0x200000, 0x200000), (0x200000, 0x2FFFFC)],
      (writeAt p.2 1#32).offset.toNat = p.2 ∧ p.2 % 4 = 0 ∧ p.1 ≤ p.2 ∧ p.2 < p.1 + 0x100000) ∧
    (writeAt 0x10000C 1#32).kind = .write 1#32 ∧ (writeAt 0x10000C 1#32).size = .four ∧
    (demoWith [.request (writeAt 0x10000C 1#32) 0]).engine = .idle ∧
    (demoWith [.request (writeAt 0x10000C 1#32) 0]).inputs = [.request (writeAt 0x10000C 1#32) 0] := by decide

/-- Entry NMAX - 1, entry NMAX and the last of the window. -/
theorem witness_PermWriteStoresEntry :
    (∀ i ∈ [15, 16, 0xFFFFF], (writeAt (0x400000 + 4 * i) 1#32).offset.toNat = 0x400000 + 4 * i) ∧
    (demoWith [.request (writeAt 0x40003C 1#32) 0]).engine = .idle ∧
    (demoWith [.request (writeAt 0x40003C 1#32) 0]).inputs = [.request (writeAt 0x40003C 1#32) 0] := by decide

theorem witness_RegistersReadBackWhatWasWritten :
    (demoWith [.request (wrRequest (.reg .len) 9#32) 0, .request (rdRequest (.reg .len)) 0]).engine = .idle ∧
    (demoWith [.request (wrRequest (.reg .len) 9#32) 0, .request (rdRequest (.reg .len)) 0]).inputs =
      [.request (wrRequest (.reg .len) 9#32) 0, .request (rdRequest (.reg .len)) 0] ∧
    (busyWith 3 [.request (wrRequest (.reg .irqEn) 9#32) 0, .request (rdRequest (.reg .irqEn)) 0]).inputs =
      [.request (wrRequest (.reg .irqEn) 9#32) 0, .request (rdRequest (.reg .irqEn)) 0] := by decide

theorem witness_WritesToReadOnlyAndReservedAreIgnored :
    (∀ off ∈ [0x00, 0x04, 0x08, 0x0C, 0x20, 0x28, 0xFFFFC, 0x300000, 0x3FFFFC],
      (writeAt off 1#32).offset.toNat = off ∧ off % 4 = 0 ∧
      (off < 0x10 ∨ off = 0x20 ∨ 0x28 ≤ off ∧ off < 0x100000 ∨ 0x300000 ≤ off ∧ off < 0x400000)) ∧
    (∀ off ∈ [0x100010, 0x1FFFFC, 0x200010, 0x2FFFFC, 0x400040, 0x7FFFFC],
      (writeAt off 1#32).offset.toNat = off ∧ off % 4 = 0 ∧
      (0x100000 + 16 ≤ off ∧ off < 0x200000 ∨ 0x200000 + 16 ≤ off ∧ off < 0x300000 ∨ 0x400000 + 4 * 16 ≤ off)) ∧
    (busyWith 3 [.request (writeAt 0x20 1#32) 0]).params.nmax = 16 ∧
    (busyWith 3 [.request (writeAt 0x20 1#32) 0]).inputs = [.request (writeAt 0x20 1#32) 0] := by decide

/-- Each register, and the first and last word of each buffer (NMAX = 16) and of the rest of each window. -/
theorem witness_BusyDropsProtectedWrites :
    (∀ off ∈ [0x10, 0x18, 0x1C, 0x100000, 0x10000C, 0x200000, 0x20000C, 0x400000, 0x40003C],
      (writeAt off 1#32).offset.toNat = off ∧ off % 4 = 0 ∧
      (off = 0x10 ∨ off = 0x18 ∨ off = 0x1C ∨ 0x100000 ≤ off ∧ off < 0x200000 ∧ off < 0x100000 + 16 ∨
        0x200000 ≤ off ∧ off < 0x300000 ∧ off < 0x200000 + 16 ∨ 0x400000 ≤ off ∧ off < 0x400000 + 4 * 16)) ∧
    (∀ off ∈ [0x100010, 0x1FFFFC, 0x200010, 0x2FFFFC, 0x400040, 0x7FFFFC],
      (writeAt off 1#32).offset.toNat = off ∧ off % 4 = 0 ∧
      (0x100000 ≤ off ∧ off < 0x200000 ∧ 0x100000 + 16 ≤ off ∨
        0x200000 ≤ off ∧ off < 0x300000 ∧ 0x200000 + 16 ≤ off ∨ 0x400000 + 4 * 16 ≤ off)) ∧
    (∀ off ∈ [0x14, 0x24], (writeAt off 1#32).offset.toNat = off ∧ off % 4 = 0) ∧
    (busyWith 3 [.request (writeAt 0x10 1#32) 0]).busy = true ∧ (writeAt 0x10 1#32).kind = .write 1#32 ∧
    (busyWith 3 [.request (writeAt 0x10 1#32) 0]).params.nmax = 16 ∧
    (busyWith 3 [.request (writeAt 0x10 1#32) 0]).inputs = [.request (writeAt 0x10 1#32) 0] := by decide

theorem witness_StatusWriteClearsDoneAndOvr :
    (writeAt 0x14 0xA#32).offset = 0x14#23 ∧ (writeAt 0x14 0xA#32).size = .four ∧
    ({ kind := .write 0xA#32, offset := 0x14#23, size := .one } : Request).size ≠ .four ∧
    (demoWith [.request (writeAt 0x14 0xA#32) 0]).inputs = [.request (writeAt 0x14 0xA#32) 0] := by decide

/-- Both ends of the window, and the addresses just outside it. -/
theorem witness_PlatformRoutesTheWindow :
    (∀ a ∈ [0x800000, 0xFFFFFF], (demo []).params.base ≤ a ∧ a ≤ (demo []).params.base + 0x7FFFFF) ∧
    0x7FFFFF < (demo []).params.base ∧ (demo []).params.base + 0x7FFFFF < 0x1000000 := by decide

/-- A block whose NMAX = 5 "ABCDE" fills, from STATUS = 0, with the requests of the LOAD and the LEN write scheduled. -/
def demoLoad : State :=
  ({ demo [] with params := { nmax := 5, base := 0 } } : State).setInputs
    ((Stmt.load [65#8, 66#8, 67#8, 68#8, 69#8]).inputs 0 [0, 2] ++ (Stmt.wr (.reg .len) 5#32).inputs 0 [])

theorem witness_LoadMakesTheOperand :
    demoLoad.engine = .idle ∧ demoLoad.params.legal = true ∧
    [65#8, 66#8, 67#8, 68#8, 69#8].length ≤ demoLoad.params.nmax ∧ statusWord false demoLoad.status = 0#32 ∧
    demoLoad.inputs = (Stmt.load [65#8, 66#8, 67#8, 68#8, 69#8]).inputs 0 [0, 2] ++
      (Stmt.wr (.reg .len) (BitVec.ofNat 32 [65#8, 66#8, 67#8, 68#8, 69#8].length)).inputs 0 [] := by decide

/-- The cycle of a RUN before its second read of STATUS: the first read finds the command BUSY, the second its end. -/
theorem test_run_slots :
    (Stmt.run .sort 6#32 1).inputs 0 [0, 0, 0, 1] =
      [.request (writeAt 0x18 6#32) 0, .request (writeAt 0x10 1#32) 0, .request (readAt 0x14) 0, .cycle,
        .request (readAt 0x14) 0] := by decide

/-- A failed validation, an acceptance and a completion with DONE_IE set, and a CLRDONE that lowers the line. -/
theorem witness_InterruptRisesAndIsNeverLost :
    (asked (cmdWrite 0x6#32) ((demo banana).setIrqEn 1#2)).map State.irq = some true ∧
    (asked (cmdWrite 0x1#32) ((demo banana).setIrqEn 1#2)).map State.irq = some false ∧
    (next? (step ((busyWith 1 [.cycle]).setIrqEn 1#2))).map State.irq = some true ∧
    (next? (step ((busyWith 1 []).setIrqEn 1#2))).map State.irq = some true ∧
    (((demo banana).setIrqEn 1#2).setStatus { done := true, err := false, ovr := false, errcode := 0#4 }).irq = true ∧
    (asked (writeAt 0x14 2#32) (((demo banana).setIrqEn 1#2).setStatus
      { done := true, err := false, ovr := false, errcode := 0#4 })).map State.irq = some false := by decide

theorem witness_ResetSetsEverything : (busyWith 3 [.reset]).inputs = [.reset] := by decide

theorem witness_EveryStepKeepsTheInvariant :
    (busyWith 3 [.cycle]).inv = true ∧ (next? (step (busyWith 3 [.cycle]))).isSome = true ∧
    (demoWith [.request (writeAt 0x100000 7#32) 0]).inv = true ∧
    (next? (step (demoWith [.request (writeAt 0x100000 7#32) 0]))).isSome = true := by decide

theorem witness_BusyStatusReadsOneOrNine : (busyWith 3 []).inv = true ∧ (busyWith 3 []).busy = true := by decide

theorem witness_OperandsAreFrozenWhileBusy :
    (busyWith 3 [.request (writeAt 0x18 1#32) 0]).engine = .busy .sort 3 ∧
    (next? (step (busyWith 3 [.request (writeAt 0x18 1#32) 0]))).isSome = true := by decide

theorem witness_OnlyBwtfWritesFirstOut :
    (next? (step ((demo banana).withFetchWord 32 0x2))).map (fun t => t.firstOut) = some 3#32 ∧
    ((demo banana).withFetchWord 32 0x2).firstOut = 0#32 ∧
    ((demo banana).withFetchWord 32 0x2).engine = .busy .bwtf 1 := by decide

theorem witness_CommandsChangeOnlyTheirOutputs :
    (demo banana).params.legal = true ∧ (next? (exec .bwtf (demo banana))).isSome = true ∧
    (next? (exec .mtfd ((demo banana).setLen 17#32))).isSome = true ∧
    writesDst .sort = false ∧ writesPerm .mtfe = false ∧ writesFirstOut .bwti = false := by decide

/-- Two blocks with the same operands and different histories. -/
theorem witness_ResultsDependOnlyOnOperands :
    (demo banana).params = ((ran 0x2 (demo banana)).getD State.reset).params ∧
    (demo banana).len = ((ran 0x2 (demo banana)).getD State.reset).len ∧
    (demo banana).first = ((ran 0x2 (demo banana)).getD State.reset).first ∧
    (List.range 6).map (demo banana).srcByte = (List.range 6).map ((ran 0x2 (demo banana)).getD State.reset).srcByte ∧
    operandError .mtfe (demo banana) = none ∧ (demo banana).params.legal = true ∧
    (demo banana).mem ≠ ((ran 0x2 (demo banana)).getD State.reset).mem := by decide

/-- The racing CMD write once valid and once not. -/
theorem witness_WriteAndCompletionComeInEitherOrder :
    (busyWith 1 []).engine = .busy .sort 1 ∧ operandError .sort (busyWith 1 []) = none ∧
    validate 0x4#32 (busyWith 1 []) = .instr .mtfe ∧ validate 0x6#32 (busyWith 1 []) = .error .illegalOp := by decide

end Sys2Proof.Tests
end

section
/-! SUPPORT. Every step keeps the invariant of the block: what a command's outputs, an acceptance, a write, a cycle and a
reset each do to its clauses, and the statement from those. -/

namespace Sys2Proof.Machine

/-! ### STATUS stays consistent (R25, R201) -/

@[simp] theorem consistent_failed (st : Status) (e : CmdError) : (st.failed e).consistent = true := by
  cases e <;> rfl

/-- `ERR` and `ERRCODE` are all that consistency reads. -/
theorem consistent_congr (st st' : Status) (he : st'.err = st.err) (hc : st'.errcode = st.errcode) :
    st'.consistent = st.consistent := by
  simp only [Status.consistent, he, hc]

/-! ### Buffer storage stays canonical and within NMAX (R31 to R33) -/

/-- The clauses of the invariant about the buffers: canonical form, and no byte at or beyond NMAX. -/
def State.storageOk (s : State) : Prop :=
  s.mem.wf = true ∧ s.mem.all (fun c => isBufferByte s.nmax c.1) = true

theorem storageOk_of_inv (s : State) (h : s.inv = true) : s.storageOk := by
  obtain ⟨-, hwf, hall, -, -⟩ := (inv_iff s).1 h
  exact ⟨hwf, hall⟩

/-- Consecutive bytes written to buffer offsets keep the storage clauses. -/
theorem storageOk_writeBytes (s : State) (a : Nat) (bs : List Byte) (h : s.storageOk)
    (hb : ∀ j, a ≤ j → j < a + bs.length → isBufferByte s.nmax j = true) :
    (s.setMem (s.mem.writeBytes a bs)).storageOk :=
  ⟨Memory.wf_writeBytes _ _ _ h.1, Memory.all_writeBytes (isBufferByte s.nmax) _ _ _ hb h.2⟩

theorem isBufferByte_dst (nmax a : Nat) (h1 : dstBase ≤ a) (h2 : a < dstBase + nmax) : isBufferByte nmax a = true := by
  simp [isBufferByte, h1, h2]

theorem isBufferByte_perm (nmax a : Nat) (h1 : permBase ≤ a) (h2 : a < permBase + 4 * nmax) :
    isBufferByte nmax a = true := by
  simp [isBufferByte, h1, h2]

theorem storageOk_storeDst (s : State) (out : List Byte) (h : s.storageOk) (hl : out.length ≤ s.nmax) :
    (s.storeDst out).storageOk :=
  storageOk_writeBytes s dstBase out h fun j h1 h2 => isBufferByte_dst _ j h1 (by omega)

theorem storageOk_storePerm (s : State) (index : List Nat) (h : s.storageOk) (hl : index.length ≤ s.nmax) :
    (s.storePerm index).storageOk := by
  refine storageOk_writeBytes s permBase _ h fun j h1 h2 => isBufferByte_perm _ j h1 ?_
  rw [length_permBytes] at h2
  omega

theorem storageOk_of_bufferWrite (s t : State) (off : Nat) (h : s.storageOk) (hw : BufferWrite s off t) :
    t.storageOk := by
  obtain ⟨m, rfl, hwf, hall, -⟩ := hw
  exact ⟨hwf h.1, hall h.2⟩

theorem len_le_nmax_of_lenError (s : State) (h : s.lenError = none) : s.n ≤ s.nmax := by
  by_contra hn
  rw [State.lenError, if_pos (not_le.1 hn)] at h
  cases h

/-- Every operation but NOP checks LEN against NMAX (R101, R106). -/
theorem len_le_nmax_of_operandError (i : Instr) (s : State) (h : operandError i s = none) (hi : i ≠ .nop) :
    s.n ≤ s.nmax := by
  cases i with
  | nop => exact absurd rfl hi
  | bwti => exact len_le_nmax_of_lenError s (Option.or_eq_none_iff.1 h).1
  | sort | sortCut | bwtf | bwtfCut | mtfe | mtfd => exact len_le_nmax_of_lenError s h

theorem storageOk_bwtForward (s : State) (cut : Bool) (h : s.storageOk) (hl : s.n ≤ s.nmax) :
    (bwtForward s cut).storageOk := by
  unfold bwtForward
  split
  · exact h
  · have hlen : (sortPerm s.operand cut).length ≤ s.nmax := by simpa using hl
    exact storageOk_storePerm _ _ (storageOk_storeDst _ _ h ((length_lastColumn _ _).trans_le hlen)) hlen

/-- A command whose operands pass their checks writes within its `n ≤ NMAX` outputs (R39). -/
theorem storageOk_outputsOf (i : Instr) (s : State) (h : s.storageOk) (ho : operandError i s = none) :
    (outputsOf i s).storageOk := by
  by_cases hi : i = .nop
  · subst hi
    exact h
  have hl := len_le_nmax_of_operandError i s ho hi
  cases i with
  | nop => exact absurd rfl hi
  | sort | sortCut => exact storageOk_storePerm s _ h (by simpa using hl)
  | bwtf | bwtfCut => exact storageOk_bwtForward s _ h hl
  | bwti | mtfe | mtfd => exact storageOk_storeDst s _ h (by simpa using hl)

/-! ### What keeps the invariant -/

/-- An IDLE block has no pending command to speak of: the other clauses make the invariant. -/
theorem inv_of_idle (s t : State) (h : s.inv = true) (hp : t.params = s.params) (he : t.engine = .idle)
    (hm : t.storageOk) (hc : t.status.consistent = true) : t.inv = true := by
  obtain ⟨hlegal, -, -, -, -⟩ := (inv_iff s).1 h
  exact (inv_iff t).2 ⟨hp ▸ hlegal, hm.1, hm.2, hc, pendingValid_idle t he⟩

/-- A STATUS that keeps ERR and ERRCODE and raises no DONE keeps the invariant in either phase. -/
theorem inv_setStatus (s : State) (st : Status) (h : s.inv = true) (he : st.err = s.status.err)
    (hc : st.errcode = s.status.errcode) (hd : s.status.done = false → st.done = false) :
    (s.setStatus st).inv = true := by
  obtain ⟨hlegal, hwf, hall, hst, hpend⟩ := (inv_iff s).1 h
  refine (inv_iff _).2 ⟨hlegal, hwf, hall, (consistent_congr _ _ he hc).trans hst, ?_⟩
  cases hE : s.engine with
  | idle => exact pendingValid_idle _ hE
  | busy i k =>
    obtain ⟨hk, hdone, herr, hcode, hcmd, hop⟩ := (pendingValid_busy s i k hE).1 hpend
    exact (pendingValid_busy (s.setStatus st) i k hE).2 ⟨hk, hd hdone, he.trans herr, hc.trans hcode, hcmd,
      (operandError_congr i (s.setStatus st) s rfl rfl rfl).trans hop⟩

/-- The invariant asks of the remaining time only that some is left (R34). -/
theorem inv_enterBusy (s : State) (i : Instr) (k k' : Nat) (h : s.inv = true) (he : s.engine = .busy i k)
    (hk' : 1 ≤ k') : (s.enterBusy i k').inv = true := by
  obtain ⟨hlegal, hwf, hall, hst, hpend⟩ := (inv_iff s).1 h
  obtain ⟨-, hdone, herr, hcode, hcmd, hop⟩ := (pendingValid_busy s i k he).1 hpend
  exact (inv_iff _).2 ⟨hlegal, hwf, hall, hst, (pendingValid_busy _ i k' rfl).2 ⟨hk', hdone, herr, hcode, hcmd,
    (operandError_congr i (s.enterBusy i k') s rfl rfl rfl).trans hop⟩⟩

/-- A failed completion leaves an IDLE block with a code of R201 (R102). -/
theorem inv_failComplete (s : State) (e : CmdError) (h : s.inv = true) : (s.failComplete e).inv = true :=
  inv_of_idle s _ h rfl rfl (storageOk_of_inv s h) (consistent_failed _ e)

/-- Acceptance: a word that fails is a failed completion, and a valid one is pending on operands that passed, with no
report left from before (R101). -/
theorem inv_accept (s : State) (w : Word) (latency : Nat) (h : s.inv = true) (hidle : s.engine = .idle) :
    (s.accept w latency).inv = true := by
  have htake : (s.takeCommand w).inv = true := inv_of_idle s _ h rfl hidle (storageOk_of_inv s h) rfl
  rcases accept_cases s w latency with ⟨e, -, ht⟩ | ⟨i, hv, ht⟩ <;> rw [ht]
  · exact inv_failComplete _ e htake
  · obtain ⟨hdec, hop⟩ := (validate_instr w s i).1 hv
    obtain ⟨hlegal, hwf, hall, hst, -⟩ := (inv_iff _).1 htake
    exact (inv_iff _).2 ⟨hlegal, hwf, hall, hst, (pendingValid_busy _ i (latency + 1) rfl).2
      ⟨Nat.le_add_left 1 latency, rfl, rfl, rfl, hdec, (operandError_congr i _ s rfl rfl rfl).trans hop⟩⟩

theorem engine_idle_of_busy_false (s : State) (h : s.busy = false) : s.engine = .idle := by
  cases hE : s.engine with
  | idle => rfl
  | busy i k => simp [State.busy, hE, Engine.isBusy] at h

/-- LEN, FIRST and the buffers take a write only while IDLE, when the invariant does not read the operands (R65, R240). -/
theorem inv_memWrite (s : State) (off : Nat) (v : Word) (latency : Nat) (h : s.inv = true) (ha : off % 4 = 0) :
    (s.memWrite off v latency).inv = true := by
  have hstore := storageOk_of_inv s h
  obtain ⟨-, -, -, hst, -⟩ := (inv_iff s).1 h
  rcases memWrite_cases s off v latency ha with
    ⟨-, -, e⟩ | e | ⟨hb, -, e⟩ | ⟨-, e⟩ | ⟨hb, -, e⟩ | ⟨hb, -, e⟩ | ⟨-, e⟩ | ⟨hb, hw⟩
  · rw [e]; exact inv_setStatus s _ h rfl rfl id
  · rw [e]; exact h
  · rw [e]; exact inv_accept s v latency h (engine_idle_of_busy_false s hb)
  · rw [e]; exact inv_setStatus s _ h rfl rfl fun hd => by simp [Status.hostWrite, hd]
  · rw [e]; exact inv_of_idle s _ h rfl (engine_idle_of_busy_false s hb) hstore hst
  · rw [e]; exact inv_of_idle s _ h rfl (engine_idle_of_busy_false s hb) hstore hst
  · rw [e]; exact inv_congr s _ h rfl rfl rfl rfl rfl rfl rfl
  · have hok := storageOk_of_bufferWrite s _ off hstore hw
    obtain ⟨m, e, -⟩ := hw
    rw [e] at hok ⊢
    exact inv_of_idle s _ h rfl (engine_idle_of_busy_false s hb) hok hst

theorem inv_request (s : State) (r : Request) (latency : Nat) (h : s.inv = true) :
    (s.request r latency).inv = true := by
  have happly : (s.applyRequest r latency).inv = true := by
    rcases applyRequest_cases s r latency with e | ⟨v, -, -, ha, e⟩ <;> rw [e]
    · exact h
    · exact inv_memWrite s _ v latency h ha
  exact inv_congr _ _ happly rfl rfl rfl rfl rfl rfl rfl

/-- The completion step of any command, whether its operands pass or fail (R102, R104). -/
theorem inv_exec (i : Instr) (s t : State) (h : s.inv = true) (ht : exec i s = .next t) : t.inv = true := by
  rw [exec_eq_runCommand] at ht
  rcases runCommand_cases i s _ t ht with ⟨e, -, rfl⟩ | ⟨hop, rfl⟩
  · exact inv_failComplete s e h
  · obtain ⟨hp, -, hstatus, -⟩ := outputsOf_frame i s
    obtain ⟨-, -, -, hst, -⟩ := (inv_iff s).1 h
    refine inv_of_idle s _ h hp rfl (storageOk_outputsOf i s (storageOk_of_inv s h) hop) ?_
    rw [complete_status, hstatus]
    exact hst

theorem inv_passCycle (s t : State) (h : s.inv = true) (ht : s.passCycle = .next t) : t.inv = true := by
  rcases passCycle_cases s t ht with ⟨-, rfl⟩ | ⟨i, k, he, hk, rfl⟩ | ⟨i, k, -, -, hx⟩
  · exact h
  · exact inv_enterBusy s i k (k - 1) h he (by omega)
  · exact inv_exec i s t h hx

/-- Reset keeps the parameters and empties the rest (R230, R231). -/
theorem inv_resetBlock (s : State) (h : s.inv = true) : s.resetBlock.inv = true :=
  inv_of_idle s _ h rfl rfl ⟨rfl, rfl⟩ rfl

theorem inv_setInputs (s : State) (inputs : List Input) (h : s.inv = true) : (s.setInputs inputs).inv = true :=
  inv_congr s _ h rfl rfl rfl rfl rfl rfl rfl

/-- A step is a cycle, a request or a reset, and each keeps the invariant. -/
theorem inv_step (s t : State) (h : s.inv = true) (ht : step s = .next t) : t.inv = true := by
  rcases step_cases s t ht with ⟨-, hc⟩ | ⟨rest, -, hc⟩ | ⟨r, latency, rest, -, rfl⟩ | ⟨rest, -, rfl⟩
  · exact inv_passCycle s t h hc
  · exact inv_passCycle _ t (inv_setInputs s rest h) hc
  · exact inv_request _ r latency (inv_setInputs s rest h)
  · exact inv_resetBlock _ (inv_setInputs s rest h)

/-- Settles O52: it holds, by the cases of a step. -/
theorem everyStepKeepsTheInvariant : Obligations.EveryStepKeepsTheInvariant := by
  unfold Obligations.EveryStepKeepsTheInvariant
  exact inv_step

end Sys2Proof.Machine
end

section
/-! SUPPORT. What the host reads in STATUS: the word bit by bit (R25), after a failed command (R102, R201), and while BUSY. -/

namespace Sys2Proof.Machine

/-- A read of offset 0x14 answers the STATUS word in either phase (R25, R64). -/
theorem memRead_status (s : State) (any : Word) : s.memRead any 0x14 = statusWord s.busy s.status := rfl

theorem busy_of_engine_idle (s : State) (h : s.engine = .idle) : s.busy = false := by
  rw [State.busy, h, Engine.isBusy]

theorem busy_of_engine_busy (s : State) (i : Instr) (k : Nat) (h : s.engine = .busy i k) : s.busy = true := by
  rw [State.busy, h, Engine.isBusy]

theorem exists_engine_busy (s : State) (h : s.busy = true) : ∃ i k, s.engine = .busy i k := by
  cases hE : s.engine with
  | idle => rw [busy_of_engine_idle s hE] at h; cases h
  | busy i k => exact ⟨i, k, rfl⟩

theorem accept_error (s : State) (w : Word) (latency : Nat) (e : CmdError) (h : validate w s = .error e) :
    s.accept w latency = (s.takeCommand w).failComplete e := by
  rw [State.accept, h]

theorem accept_instr (s : State) (w : Word) (latency : Nat) (i : Instr) (h : validate w s = .instr i) :
    s.accept w latency = (s.takeCommand w).enterBusy i (latency + 1) := by
  rw [State.accept, h]

/-- The report of a failed acceptance (R101, R102): OVR is all that is left from before. -/
theorem status_accepted_failed (st : Status) (e : CmdError) :
    st.accepted.failed e = { done := true, err := true, ovr := st.ovr, errcode := e.code } := rfl

/-- The four flag bits of the STATUS word. -/
theorem statusWord_flags (busy : Bool) (st : Status) :
    (statusWord busy st).getLsbD 0 = busy ∧ (statusWord busy st).getLsbD 1 = st.done ∧
    (statusWord busy st).getLsbD 2 = st.err ∧ (statusWord busy st).getLsbD 3 = st.ovr := by
  have bit : ∀ b : Bool, (flagBit b).getLsbD 0 = b := by decide
  simp only [statusWord, BitVec.getLsbD_append, Nat.reduceLT, Nat.reduceSub, if_true, if_false, bit, and_self]

/-- The code and the two reserved fields of the STATUS word. -/
theorem statusWord_fields (busy : Bool) (st : Status) :
    (statusWord busy st).extractLsb' 4 4 = 0#4 ∧ (statusWord busy st).extractLsb' 8 4 = st.errcode ∧
    (statusWord busy st).extractLsb' 12 20 = 0#20 := by
  simp (disch := decide) only [statusWord, BitVec.extractLsb'_append_eq_of_le,
    BitVec.extractLsb'_append_eq_of_add_le, BitVec.extractLsb'_eq_self, Nat.reduceSub, and_self]

/-- Settles O40: it holds, field by field of the word a STATUS read answers. -/
theorem statusWordFields : Obligations.StatusWordFields := by
  unfold Obligations.StatusWordFields
  intro s w
  obtain ⟨hbusy, hdone, herr, hovr⟩ := statusWord_flags s.busy s.status
  obtain ⟨hlow, hcode, hhigh⟩ := statusWord_fields s.busy s.status
  exact ⟨hbusy, hdone, herr, hovr, hlow, hcode, hhigh⟩

/-- Settles O9: it holds; the four errors and the two values of OVR give the eight words. -/
theorem failedCommandStatusReads : Obligations.FailedCommandStatusReads := by
  unfold Obligations.FailedCommandStatusReads
  intro s w latency e code _ hv h1 h2 h3 h4 t
  have ht : t = (s.takeCommand w).failComplete e := accept_error s w latency e hv
  have hword : t.memRead t.nextAny 0x14 =
      statusWord false { done := true, err := true, ovr := s.status.ovr, errcode := e.code } := by rw [ht]; rfl
  rw [hword]
  cases e with
  | illegalOp => rw [h1 rfl]; cases s.status.ovr <;> rfl
  | rsvdField => rw [h2 rfl]; cases s.status.ovr <;> rfl
  | lenRange => rw [h3 rfl]; cases s.status.ovr <;> rfl
  | firstRange => rw [h4 rfl]; cases s.status.ovr <;> rfl

/-- Settles O53: it holds; the invariant leaves OVR alone to vary while BUSY. -/
theorem busyStatusReadsOneOrNine : Obligations.BusyStatusReadsOneOrNine := by
  unfold Obligations.BusyStatusReadsOneOrNine
  intro s hinv hbusy
  obtain ⟨i, k, hE⟩ := exists_engine_busy s hbusy
  obtain ⟨-, -, -, -, hpend⟩ := (inv_iff s).1 hinv
  obtain ⟨-, hdone, herr, hcode, -, -⟩ := (pendingValid_busy s i k hE).1 hpend
  have hst : s.status = { done := false, err := false, ovr := s.status.ovr, errcode := 0#4 } := by
    calc s.status = ⟨s.status.done, s.status.err, s.status.ovr, s.status.errcode⟩ := rfl
      _ = _ := by rw [hdone, herr, hcode]
  rw [memRead_status, hbusy, hst]
  cases s.status.ovr <;> rfl

end Sys2Proof.Machine
end

section
/-! SUPPORT. Host writes and reads of registers and of PERM: acceptance of a CMD write (R101, R103), what LEN, FIRST and
IRQ_EN store (R26, R27, R29), PERM entries (R33, R65), and the writes that are ignored (R23, R30). -/

namespace Sys2Proof.Machine

theorem offset_mod_four (r : Reg) : r.offset % 4 = 0 := by cases r <;> rfl

/-- A step on an aligned write answers the state after the write, its response and the count. -/
theorem step_write (s : State) (r : Request) (v : Word) (latency : Nat) (rest : List Input)
    (hin : s.inputs = .request r latency :: rest) (hk : r.kind = .write v) (hs : r.size = .four)
    (ho : r.offset.toNat % 4 = 0) :
    step s = .next ((((s.setInputs rest).memWrite r.offset.toNat v latency).setResponse
      (some { rdata := none, err := false })).setDraws (s.draws + 1)) := by
  rw [step_request s r latency rest hin, request_write _ r v latency hk hs ho, setInputs_draws]

/-- A step on an aligned read answers the state with its response and the count. -/
theorem step_read (s : State) (r : Request) (latency : Nat) (rest : List Input)
    (hin : s.inputs = .request r latency :: rest) (hk : r.kind = .read) (hs : r.size = .four)
    (ho : r.offset.toNat % 4 = 0) :
    step s = .next (((s.setInputs rest).setResponse
      (some { rdata := some ((s.setInputs rest).memRead s.nextAny r.offset.toNat), err := false })).setDraws
        (s.draws + 1)) := by
  rw [step_request s r latency rest hin, request_read _ r latency hk hs ho, setInputs_draws]
  rfl

/-! ### Registers -/

/-- A register write that is not protected, or comes while IDLE, takes effect (R65). -/
theorem memWrite_reg (s : State) (r : Reg) (v : Word) (latency : Nat)
    (h : s.engine = .idle ∨ (Loc.reg r).isProtected s.nmax = false) :
    s.memWrite r.offset v latency = s.writeReg v latency r := by
  have hd : (s.busy && (Loc.reg r).isProtected s.nmax) = false := by
    rcases h with h | h
    · rw [busy_of_engine_idle s h, Bool.false_and]
    · rw [h, Bool.and_false]
  simp only [State.memWrite, locOf_reg, hd, Bool.false_eq_true, if_false]

/-- A register read (R64). -/
theorem memRead_reg (s : State) (any : Word) (r : Reg) : s.memRead any r.offset = s.readReg any r := by
  simp only [State.memRead, locOf_reg]

theorem wrRequest_reg_offset (r : Reg) (v : Word) : (wrRequest (.reg r) v).offset.toNat = r.offset := by
  cases r <;> rfl

theorem rdRequest_reg_offset (r : Reg) : (rdRequest (.reg r)).offset.toNat = r.offset := by cases r <;> rfl

/-- A step on a register write that takes effect. -/
theorem step_writeReg (s : State) (reg : Reg) (v : Word) (latency : Nat) (rest : List Input)
    (h : s.engine = .idle ∨ (Loc.reg reg).isProtected s.nmax = false)
    (hin : s.inputs = .request (wrRequest (.reg reg) v) latency :: rest) :
    step s = .next ((((s.setInputs rest).writeReg v latency reg).setResponse
      (some { rdata := none, err := false })).setDraws (s.draws + 1)) := by
  have hoff := wrRequest_reg_offset reg v
  rw [step_write s _ v latency rest hin rfl rfl (hoff ▸ offset_mod_four reg), hoff,
    memWrite_reg (s.setInputs rest) reg v latency h]

/-- A step on a protected register write while BUSY: the write is dropped with OVR (R240). -/
theorem step_writeReg_dropped (s : State) (reg : Reg) (v : Word) (latency : Nat) (rest : List Input)
    (hb : s.busy = true) (hp : (Loc.reg reg).isProtected s.nmax = true)
    (hin : s.inputs = .request (wrRequest (.reg reg) v) latency :: rest) :
    step s = .next (((s.setInputs rest).dropWrite.setResponse
      (some { rdata := none, err := false })).setDraws (s.draws + 1)) := by
  have hoff := wrRequest_reg_offset reg v
  have hdrop : (s.setInputs rest).memWrite reg.offset v latency = (s.setInputs rest).dropWrite := by
    rw [State.memWrite, locOf_reg, show (s.setInputs rest).busy = true from hb,
      show (Loc.reg reg).isProtected (s.setInputs rest).nmax = true from hp, Bool.and_self, if_pos rfl]
  rw [step_write s _ v latency rest hin rfl rfl (hoff ▸ offset_mod_four reg), hoff, hdrop]

/-- A step on a register read. -/
theorem step_readReg (s : State) (reg : Reg) (latency : Nat) (rest : List Input)
    (hin : s.inputs = .request (rdRequest (.reg reg)) latency :: rest) :
    step s = .next (((s.setInputs rest).setResponse
      (some { rdata := some ((s.setInputs rest).readReg s.nextAny reg), err := false })).setDraws (s.draws + 1)) := by
  have hoff := rdRequest_reg_offset reg
  rw [step_read s _ latency rest hin rfl rfl (hoff ▸ offset_mod_four reg), hoff, memRead_reg]

/-- A CMD write while IDLE is an acceptance (R24, R101). -/
theorem step_cmdWrite_idle (s : State) (w : Word) (latency : Nat) (rest : List Input) (he : s.engine = .idle)
    (hin : s.inputs = .request (cmdWrite w) latency :: rest) :
    step s = .next ((((s.setInputs rest).accept w latency).setResponse
      (some { rdata := none, err := false })).setDraws (s.draws + 1)) :=
  step_writeReg s .cmd w latency rest (Or.inl he) hin

/-- Settles O7: it holds; a valid word is the second end of an acceptance. -/
theorem cmdWriteWhileIdleIsAccepted : Obligations.CmdWriteWhileIdleIsAccepted := by
  unfold Obligations.CmdWriteWhileIdleIsAccepted
  intro s w latency rest i he hin hv
  have hv' : validate w (s.setInputs rest) = .instr i := (validate_congr w _ s rfl rfl rfl).trans hv
  refine ⟨_, step_cmdWrite_idle s w latency rest he hin, ?_⟩
  rw [accept_instr _ w latency i hv']
  exact ⟨rfl, rfl, rfl, rfl, rfl, rfl, rfl, rfl, rfl, rfl, rfl, rfl, rfl⟩

/-- IRQ_EN keeps two bits of a word and reads zero above them (R29). -/
theorem setWidth_two_setWidth (v : Word) : (v.setWidth 2).setWidth 32 = v &&& 3#32 := by
  apply BitVec.eq_of_toNat_eq
  have hmod : v.toNat % 4 % 4294967296 = v.toNat % 4 := by omega
  simpa [hmod] using (Nat.and_two_pow_sub_one_eq_mod v.toNat 2).symm

theorem runSteps_two {s a t : State} (h1 : step s = .next a) (h2 : step a = .next t) : runSteps 2 s = .next t := by
  rw [runSteps_succ 1 s a h1, runSteps_one a t h2]

/-- Settles O43: it holds; the write takes effect in its phase, and the read answers the register. -/
theorem registersReadBackWhatWasWritten : Obligations.RegistersReadBackWhatWasWritten := by
  unfold Obligations.RegistersReadBackWhatWasWritten
  intro s v reg latency hreg hin
  have hopen : s.engine = .idle ∨ (Loc.reg reg).isProtected s.nmax = false := by
    rcases hreg with ⟨he, -⟩ | rfl
    · exact Or.inl he
    · exact Or.inr rfl
  have hwrite := step_writeReg s reg v latency _ hopen hin
  have hread := step_readReg ((((s.setInputs [.request (rdRequest (.reg reg)) latency]).writeReg v latency
    reg).setResponse (some { rdata := none, err := false })).setDraws (s.draws + 1)) reg latency []
  rcases hreg with ⟨-, rfl | rfl⟩ | rfl
  all_goals
    refine ⟨_, runSteps_two hwrite (hread rfl), ?_⟩
    simp [State.writeReg, State.readReg, setWidth_two_setWidth]

/-! ### PERM entries -/

/-- What a buffer byte holds is fixed by what was written at its offset and by the resets (R231). -/
theorem byteAt_congr (s t : State) (a : Nat) (hm : t.mem.read? a = s.mem.read? a) (hr : t.resets = s.resets) :
    t.byteAt a = s.byteAt a := by
  rw [State.byteAt, State.byteAt, hm, hr]

/-- A PERM entry reads back its four bytes (R63, R65). -/
theorem permEntry_writePerm (s : State) (i : Nat) (v : Word) (h : i < s.nmax) : (s.writePerm i v).permEntry i = v := by
  have lane : ∀ j, j < 4 → (s.writePerm i v).byteAt (permBase + 4 * i + j) = laneOf v j := by
    intro j hj
    rw [State.writePerm, if_pos h, State.byteAt, setMem_mem, Memory.read?_writeBytes, bytesOfWord]
    interval_cases j <;> simp
  have h0 := lane 0 (by omega)
  rw [Nat.add_zero] at h0
  rw [State.permEntry, h0, lane 1 (by omega), lane 2 (by omega), lane 3 (by omega), wordOfBytes_lanes]

/-- A write to the PERM window while IDLE (R65). -/
theorem memWrite_perm (s : State) (i : Nat) (v : Word) (latency : Nat) (he : s.engine = .idle)
    (hi : 0x400000 + 4 * i < 0x800000) : s.memWrite (0x400000 + 4 * i) v latency = s.writePerm i v := by
  have hl : locOf (0x400000 + 4 * i) = .perm i := by
    rw [locOf_perm _ (by omega) hi, show (0x400000 + 4 * i - 0x400000) / 4 = i by omega]
  simp only [State.memWrite, hl, busy_of_engine_idle s he, Bool.false_and, Bool.false_eq_true, if_false]

/-- Settles O42: it holds; the frame is that of every buffer write. -/
theorem permWriteStoresEntry : Obligations.PermWriteStoresEntry := by
  unfold Obligations.PermWriteStoresEntry
  intro s r v latency rest i hin he hk hs hoff
  have hstep := step_write s r v latency rest hin hk hs (by omega)
  have hwrite := memWrite_perm (s.setInputs rest) i v latency he (hoff ▸ r.offset.isLt)
  rw [hoff, hwrite] at hstep
  obtain ⟨m, hm, -, -, hframe⟩ := writePerm_bufferWrite (s.setInputs rest) i v
  refine ⟨_, hstep, ?_, fun hi => permEntry_writePerm (s.setInputs rest) i v hi, fun hi => ?_, fun a ha => ?_⟩
  · rw [hm]
    rfl
  · rw [writePerm_tail (s.setInputs rest) i v hi]
    rfl
  · rw [hm]
    exact byteAt_congr s _ a (hframe a ha) rfl

/-! ### Writes that are ignored -/

/-- A write to a location that is not protected changes nothing, STATUS and IRQ_EN apart (R23, R30, R65). -/
theorem memWrite_ignored (s : State) (off : Nat) (v : Word) (latency : Nat)
    (hp : (locOf off).isProtected s.nmax = false) (hstatus : locOf off ≠ .reg .status)
    (hirq : locOf off ≠ .reg .irqEn) : s.memWrite off v latency = s := by
  unfold State.memWrite
  rw [hp, Bool.and_false, if_neg Bool.false_ne_true]
  generalize locOf off = l at hp hstatus hirq ⊢
  cases l with
  | reg r =>
    cases r with
    | id | version | caps | firstOut => rfl
    | cmd | len | first => cases hp
    | status => exact absurd rfl hstatus
    | irqEn => exact absurd rfl hirq
  | src k | dst k => exact writeWord_tail s _ k v (not_lt.1 (of_decide_eq_false hp))
  | perm i => exact writePerm_tail s i v (not_lt.1 (of_decide_eq_false hp))
  | reserved => rfl

/-- The read-only registers and the reserved offsets of R22, with the window words wholly at or beyond NMAX. -/
def isIgnoredOffset (nmax off : Nat) : Prop :=
  off < 0x10 ∨ off = 0x20 ∨ 0x28 ≤ off ∧ off < 0x100000 ∨ 0x300000 ≤ off ∧ off < 0x400000 ∨
    0x100000 + nmax ≤ off ∧ off < 0x200000 ∨ 0x200000 + nmax ≤ off ∧ off < 0x300000 ∨ 0x400000 + 4 * nmax ≤ off

theorem memWrite_ignoredOffset (s : State) (off : Nat) (v : Word) (latency : Nat) (hmod : off % 4 = 0)
    (hlt : off < 0x800000) (h : isIgnoredOffset s.nmax off) : s.memWrite off v latency = s := by
  obtain ⟨hp, hstatus, hirq⟩ : (locOf off).isProtected s.nmax = false ∧ locOf off ≠ .reg .status ∧
      locOf off ≠ .reg .irqEn := by
    rcases h with h | rfl | h | h | ⟨h1, h2⟩ | ⟨h1, h2⟩ | h
    · obtain rfl | rfl | rfl | rfl : off = 0x00 ∨ off = 0x04 ∨ off = 0x08 ∨ off = 0x0C := by omega
      all_goals exact ⟨rfl, by decide, by decide⟩
    · exact ⟨rfl, by decide, by decide⟩
    · rw [locOf_reserved off (by omega)]
      exact ⟨rfl, nofun, nofun⟩
    · rw [locOf_reserved off (by omega)]
      exact ⟨rfl, nofun, nofun⟩
    · rw [locOf_src off (by omega) h2]
      exact ⟨decide_eq_false (by omega), nofun, nofun⟩
    · rw [locOf_dst off (by omega) h2]
      exact ⟨decide_eq_false (by omega), nofun, nofun⟩
    · rw [locOf_perm off (by omega) hlt]
      exact ⟨decide_eq_false (by omega), nofun, nofun⟩
  exact memWrite_ignored s off v latency hp hstatus hirq

/-- Settles O44: it holds; none of these offsets names a location a write changes or protects. -/
theorem writesToReadOnlyAndReservedAreIgnored : Obligations.WritesToReadOnlyAndReservedAreIgnored := by
  unfold Obligations.WritesToReadOnlyAndReservedAreIgnored
  intro s r v latency rest off hin hk hs hoff hmod h
  subst hoff
  rw [step_write s r v latency rest hin hk hs hmod,
    memWrite_ignoredOffset (s.setInputs rest) _ v latency hmod r.offset.isLt h]
  rfl

end Sys2Proof.Machine
end

section
/-! SUPPORT. The completion step: a cycle by the engine's phase (R103, R104), and what a command whose operands pass leaves
and ends with (R38, R104). -/

namespace Sys2Proof.Machine

/-! ### A step without a request -/

/-- A step with a cycle scheduled or with nothing scheduled is a cycle. -/
theorem step_noRequest (s : State) (rest : List Input) (h : s.inputs = .cycle :: rest ∨ s.inputs = [] ∧ rest = []) :
    step s = (s.setInputs rest).passCycle := by
  rcases h with h | ⟨h, rfl⟩
  · exact step_cycle s rest h
  · rw [step_nothing s h, show s.setInputs [] = s by rw [← h]; rfl]

theorem passCycle_idle (s : State) (h : s.engine = .idle) : s.passCycle = .next s := by
  rw [State.passCycle, h]

theorem passCycle_due (s : State) (i : Instr) (k : Nat) (h : s.engine = .busy i k) (hk : k ≤ 1) :
    s.passCycle = exec i s := by
  rw [State.passCycle, h]
  exact if_pos hk

theorem passCycle_waits (s : State) (i : Instr) (k : Nat) (h : s.engine = .busy i k) (hk : 1 < k) :
    s.passCycle = .next (s.enterBusy i (k - 1)) := by
  rw [State.passCycle, h]
  exact if_neg (by omega)

/-- Settles O10: it holds, by the three ends of a cycle. -/
theorem stepRunsPendingCommand : Obligations.StepRunsPendingCommand := by
  unfold Obligations.StepRunsPendingCommand
  intro s rest h
  rw [step_noRequest s rest h]
  exact ⟨passCycle_idle (s.setInputs rest), passCycle_due (s.setInputs rest), passCycle_waits (s.setInputs rest)⟩

/-! ### A command whose operands pass -/

theorem exec_ok (i : Instr) (s : State) (h : operandError i s = none) : exec i s = .next (outputsOf i s).complete := by
  rw [exec_eq_runCommand, runCommand_ok i s _ h]

/-- The completion step of a pending command whose operands pass. -/
theorem step_completes (s : State) (i : Instr) (k : Nat) (rest : List Input) (hE : s.engine = .busy i k) (hk : k ≤ 1)
    (hop : operandError i s = none) (hin : s.inputs = .cycle :: rest ∨ s.inputs = [] ∧ rest = []) :
    step s = .next (outputsOf i (s.setInputs rest)).complete := by
  rw [step_noRequest s rest hin, passCycle_due (s.setInputs rest) i k hE hk,
    exec_ok i (s.setInputs rest) ((operandError_congr i _ s rfl rfl rfl).trans hop)]

theorem kept_complete_outputsOf (i : Instr) (s : State) : s.kept (outputsOf i s).complete := by
  obtain ⟨hparams, hcmd, -, hlen, hfirst, hirq, hinputs, hresp, hdraws, hresets⟩ := outputsOf_frame i s
  exact ⟨hparams, hcmd, hlen, hfirst, hirq, hinputs, hresp, hdraws, hresets⟩

theorem completedFrom_complete_outputsOf (i : Instr) (s : State) : s.completedFrom (outputsOf i s).complete := by
  obtain ⟨-, -, hstatus, -⟩ := outputsOf_frame i s
  exact ⟨rfl, by rw [complete_status, hstatus]⟩

/-- Settles O12: it holds; the invariant says that the operands pass and that no report is left from before. -/
theorem validCommandCompletesWithoutError : Obligations.ValidCommandCompletesWithoutError := by
  unfold Obligations.ValidCommandCompletesWithoutError
  intro s i k rest hinv hE hk hin
  obtain ⟨-, -, -, -, hpend⟩ := (inv_iff s).1 hinv
  obtain ⟨-, -, herr, hcode, -, hop⟩ := (pendingValid_busy s i k hE).1 hpend
  have hexec := exec_ok i (s.setInputs rest) ((operandError_congr i _ s rfl rfl rfl).trans hop)
  obtain ⟨hidle, hstatus⟩ := completedFrom_complete_outputsOf i (s.setInputs rest)
  refine ⟨_, hexec, step_completes s i k rest hE hk hop hin, hidle, ?_, kept_complete_outputsOf i _⟩
  simp only [hstatus, setInputs_status, herr, hcode]

end Sys2Proof.Machine
end

section
/-! SUPPORT. The sort only reorders (R123), so that offset 0 has a rank (R140). -/

namespace Sys2Proof.Machine

/-- The zones of a scan: inside the part scanned, in order. -/
theorem scan_bounds (s : List Byte) (d v left lt i : Nat) (l : List Nat) (h : lt ≤ i) :
    lt ≤ (scan s d v left lt i l).lt ∧ (scan s d v left lt i l).lt ≤ (scan s d v left lt i l).gtEnd ∧
    (scan s d v left lt i l).gtEnd ≤ i + left := by
  induction left generalizing lt i l with
  | zero => exact ⟨le_rfl, h, le_rfl⟩
  | succ k ih =>
    unfold scan
    split
    · have := ih (lt + 1) (i + 1) (swapEntries l lt i) (by omega)
      omega
    · split
      · have := ih lt i (swapEntries l i (i + k)) h
        omega
      · have := ih lt (i + 1) l (by omega)
        omega

/-- A scan inside the array only swaps entries of it. -/
theorem scan_perm (s : List Byte) (d v left lt i : Nat) (l : List Nat) (h : lt ≤ i) (hl : i + left ≤ l.length) :
    (scan s d v left lt i l).index.Perm l := by
  induction left generalizing lt i l with
  | zero => exact .refl l
  | succ k ih =>
    unfold scan
    split
    · exact (ih (lt + 1) (i + 1) _ (by omega) (by rw [length_swapEntries]; omega)).trans
        (swapEntries_perm l lt i (by omega) (by omega))
    · split
      · exact (ih lt i _ h (by rw [length_swapEntries]; omega)).trans
          (swapEntries_perm l i (i + k) (by omega) (by omega))
      · exact ih lt (i + 1) l (by omega) (by omega)

theorem partitionAt_bounds (s : List Byte) (lo hiEnd d : Nat) (l : List Nat) (h : lo + 1 ≤ hiEnd) :
    (partitionAt s lo hiEnd d l).lt ≤ (partitionAt s lo hiEnd d l).gtEnd ∧
    (partitionAt s lo hiEnd d l).gtEnd ≤ hiEnd := by
  obtain ⟨-, hzones, hgt⟩ :=
    scan_bounds s d (charAt s (l.getD lo 0) d) (hiEnd - (lo + 1)) lo (lo + 1) l (by omega)
  exact ⟨hzones, hgt.trans (by omega)⟩

theorem partitionAt_perm (s : List Byte) (lo hiEnd d : Nat) (l : List Nat) (h : lo + 1 ≤ hiEnd)
    (hl : hiEnd ≤ l.length) : (partitionAt s lo hiEnd d l).index.Perm l :=
  scan_perm s d _ (hiEnd - (lo + 1)) lo (lo + 1) l (by omega) (by omega)

/-- A range sorted inside the array is a reordering of the array: so is its partition, and the three sorts in turn. -/
theorem sort3_perm (s : List Byte) (L : Int) (fuel lo hiEnd d : Nat) (l : List Nat) (h : hiEnd ≤ l.length) :
    (sort3 s L fuel lo hiEnd d l).Perm l := by
  induction fuel generalizing lo hiEnd d l with
  | zero => exact .refl l
  | succ k ih =>
    unfold sort3
    split
    · exact .refl l
    · obtain ⟨hzones, hgt⟩ := partitionAt_bounds s lo hiEnd d l (by omega)
      have hpart := partitionAt_perm s lo hiEnd d l (by omega) h
      have hlow := (ih lo (partitionAt s lo hiEnd d l).lt d _ (by rw [hpart.length_eq]; omega)).trans hpart
      have hmid := (ih (partitionAt s lo hiEnd d l).lt (partitionAt s lo hiEnd d l).gtEnd (d + 1) _
        (by rw [hlow.length_eq]; omega)).trans hlow
      exact (ih _ hiEnd d _ (h.trans_eq hmid.length_eq.symm)).trans hmid

theorem sortPerm_perm (s : List Byte) (cut : Bool) : (sortPerm s cut).Perm (List.range s.length) :=
  sort3_perm s _ _ 0 s.length 0 _ (by rw [List.length_range])

/-- Some rank has offset 0 (R140). -/
theorem zero_mem_sortPerm (s : List Byte) (cut : Bool) (h : 0 < s.length) : 0 ∈ sortPerm s cut :=
  (sortPerm_perm s cut).mem_iff.2 (List.mem_range.2 h)

theorem firstRank_lt (index : List Nat) (h : 0 ∈ index) : firstRank index < index.length :=
  List.idxOf_lt_length_of_mem h

theorem getD_firstRank (index : List Nat) (h : 0 ∈ index) : index.getD (firstRank index) 0 = 0 := by
  rw [List.getD_eq_getElem _ _ (firstRank_lt index h)]
  exact List.getElem_idxOf (firstRank_lt index h)

end Sys2Proof.Machine
end

section
/-! SUPPORT. What each command writes: the bytes of DST, the entries of PERM and FIRST_OUT as functions of its operands, and
everything else as it was (R38, R39). -/

namespace Sys2Proof.Machine

/-! ### Reading what an output operation stored -/

theorem dstByte_storeDst (s : State) (out : List Byte) (k : Nat) (h : k < out.length) :
    (s.storeDst out).dstByte k = out.getD k 0#8 := by
  rw [State.dstByte, byteAt_storeDst, if_pos (by omega), Nat.add_sub_cancel_left]

theorem byteAt_storeDst_other (s : State) (out : List Byte) (a : Nat) (h : a < dstBase ∨ dstBase + out.length ≤ a) :
    (s.storeDst out).byteAt a = s.byteAt a := by
  rw [byteAt_storeDst, if_neg (by omega)]

theorem byteAt_storePerm_other (s : State) (index : List Nat) (a : Nat)
    (h : a < permBase ∨ permBase + 4 * index.length ≤ a) : (s.storePerm index).byteAt a = s.byteAt a := by
  rw [byteAt_storePerm, if_neg (by omega)]

/-- The DST window lies below PERM (R22). -/
theorem dstByte_storePerm (s : State) (index : List Nat) (k : Nat) (hk : k < 0x200000) :
    (s.storePerm index).dstByte k = s.dstByte k :=
  byteAt_storePerm_other s index _ (Or.inl (by simp only [dstBase, permBase]; omega))

theorem bwtForward_of_pos (s : State) (cut : Bool) (h : 1 ≤ s.n) :
    bwtForward s cut = ((s.setFirstOut (indexWord (firstRank (sortPerm s.operand cut)))).storeDst
      (lastColumn s.operand (sortPerm s.operand cut))).storePerm (sortPerm s.operand cut) :=
  if_neg (by omega)

/-! ### The outputs of a command by R39's table -/

/-- What an instruction that writes DST writes there, from its operand and FIRST (R141, R144, R162, R164). -/
def dstResult (i : Instr) (operand : List Byte) (first : Nat) : List Byte :=
  match i with
  | .nop => []
  | .sort => []
  | .sortCut => []
  | .bwtf => lastColumn operand (sortPerm operand false)
  | .bwtfCut => lastColumn operand (sortPerm operand true)
  | .bwti => bwtInverse first operand
  | .mtfe => mtfEncode operand
  | .mtfd => mtfDecode operand

theorem dstByte_bwtForward (s : State) (cut : Bool) (k : Nat) (hk : k < s.n) (hlt : k < 0x200000) :
    (bwtForward s cut).dstByte k = (lastColumn s.operand (sortPerm s.operand cut)).getD k 0#8 := by
  rw [bwtForward_of_pos s cut (by omega), dstByte_storePerm _ _ k hlt, dstByte_storeDst _ _ k (by simpa using hk)]

/-- `DST[0..n-1]` after a command that writes DST. -/
theorem dstByte_outputsOf (i : Instr) (s : State) (k : Nat) (hi : writesDst i = true) (hk : k < s.n)
    (hlt : writesPerm i = true → k < 0x200000) :
    (outputsOf i s).dstByte k = (dstResult i s.operand s.firstIndex).getD k 0#8 := by
  cases i with
  | nop | sort | sortCut => cases hi
  | bwtf | bwtfCut => exact dstByte_bwtForward s _ k hk (hlt rfl)
  | bwti | mtfe | mtfd => exact dstByte_storeDst s _ k (by simpa using hk)

theorem permEntry_bwtForward (s : State) (cut : Bool) (k : Nat) (hk : k < s.n) :
    (bwtForward s cut).permEntry k = indexWord ((sortPerm s.operand cut).getD k 0) := by
  rw [bwtForward_of_pos s cut (by omega), permEntry_storePerm _ _ k (by simpa using hk)]

/-- `PERM[0..n-1]` after a command that writes PERM: the permutation of its CUT bit (R126, R141). -/
theorem permEntry_outputsOf (i : Instr) (s : State) (k : Nat) (hi : writesPerm i = true) (hk : k < s.n) :
    (outputsOf i s).permEntry k = indexWord ((sortPerm s.operand i.cut).getD k 0) := by
  cases i with
  | nop | bwti | mtfe | mtfd => cases hi
  | sort | sortCut => exact permEntry_storePerm s _ k (by simpa using hk)
  | bwtf | bwtfCut => exact permEntry_bwtForward s _ k hk

theorem firstOut_bwtForward (s : State) (cut : Bool) :
    (bwtForward s cut).firstOut = if s.n = 0 then 0#32 else indexWord (firstRank (sortPerm s.operand cut)) := by
  unfold bwtForward
  split <;> rfl

/-- FIRST_OUT after a forward transform: the rank of offset 0, and 0 for the empty input (R140, R142). -/
theorem firstOut_outputsOf (i : Instr) (s : State) (hi : writesFirstOut i = true) :
    (outputsOf i s).firstOut = if s.n = 0 then 0#32 else indexWord (firstRank (sortPerm s.operand i.cut)) := by
  cases i with
  | nop | sort | sortCut | bwti | mtfe | mtfd => cases hi
  | bwtf | bwtfCut => exact firstOut_bwtForward s _

theorem firstOut_outputsOf_frame (i : Instr) (s : State) (hi : writesFirstOut i = false) :
    (outputsOf i s).firstOut = s.firstOut := by
  cases i with
  | nop | sort | sortCut | bwti | mtfe | mtfd => rfl
  | bwtf | bwtfCut => cases hi

theorem byteAt_bwtForward_other (s : State) (cut : Bool) (a : Nat) (hd : a < dstBase ∨ dstBase + s.n ≤ a)
    (hp : a < permBase ∨ permBase + 4 * s.n ≤ a) : (bwtForward s cut).byteAt a = s.byteAt a := by
  unfold bwtForward
  split
  · rfl
  · rw [byteAt_storePerm_other _ _ a (by simpa using hp), byteAt_storeDst_other _ _ a (by simpa using hd)]
    rfl

/-- A command changes no byte outside the first n entries of the windows it writes (R38, R39). -/
theorem byteAt_outputsOf_frame (i : Instr) (s : State) (a : Nat)
    (hd : writesDst i = true → a < dstBase ∨ dstBase + s.n ≤ a)
    (hp : writesPerm i = true → a < permBase ∨ permBase + 4 * s.n ≤ a) :
    (outputsOf i s).byteAt a = s.byteAt a := by
  cases i with
  | nop => rfl
  | sort | sortCut => exact byteAt_storePerm_other s _ a (by simpa using hp rfl)
  | bwtf | bwtfCut => exact byteAt_bwtForward_other s _ a (hd rfl) (hp rfl)
  | bwti | mtfe | mtfd => exact byteAt_storeDst_other s _ a (by simpa using hd rfl)

/-! ### SORT, BWTF, BWTI and the move-to-front commands -/

/-- A length within NMAX is all that the operations other than BWTI ask for (R101). -/
theorem operandError_of_len (i : Instr) (s : State) (h : s.n ≤ s.nmax) (hi : i ≠ .bwti) : operandError i s = none := by
  cases i with
  | nop => rfl
  | bwti => exact absurd rfl hi
  | sort | sortCut | bwtf | bwtfCut | mtfe | mtfd => exact lenError_none s h

theorem operandError_bwti (s : State) (h : s.n ≤ s.nmax) (hf : s.firstIndex < s.n) : operandError .bwti s = none := by
  have hfirst : s.firstError = none := if_neg (by omega)
  exact Option.or_eq_none_iff.2 ⟨lenError_none s h, hfirst⟩

theorem getD_operand (s : State) (k : Nat) (h : k < s.n) : s.operand.getD k 0#8 = s.srcByte k := by
  rw [List.getD_eq_getElem _ _ (by simpa using h)]
  simp [State.operand]

/-- Settles O16: it holds, from what SORT writes and leaves. -/
theorem sortWritesPerm : Obligations.SortWritesPerm := by
  unfold Obligations.SortWritesPerm
  intro s i cut hi hl
  have hop : operandError i s = none := operandError_of_len i s hl (by rintro rfl; simp at hi)
  have hcut : i.cut = cut ∧ writesPerm i = true ∧ writesDst i = false ∧ writesFirstOut i = false := by
    rcases hi with ⟨rfl, rfl⟩ | ⟨rfl, rfl⟩ <;> exact ⟨rfl, rfl, rfl, rfl⟩
  obtain ⟨rfl, hperm, hdst, hfo⟩ := hcut
  refine ⟨_, exec_ok i s hop, completedFrom_complete_outputsOf i s, kept_complete_outputsOf i s,
    firstOut_outputsOf_frame i s hfo, fun r hr => permEntry_outputsOf i s r hperm hr, fun a ha => ?_⟩
  exact byteAt_outputsOf_frame i s a (fun h => by simp [hdst] at h) (fun _ => ha)

/-- A command that writes DST alone, on operands that pass: BWTI, MTFE and MTFD by R39's table. -/
theorem exec_of_writesDst_only (i : Instr) (s : State) (hd : writesDst i = true) (hp : writesPerm i = false)
    (hop : operandError i s = none) :
    ∃ t, exec i s = .next t ∧ s.completedFrom t ∧ s.kept t ∧ t.firstOut = s.firstOut ∧
      (∀ k, k < s.n → t.dstByte k = (dstResult i s.operand s.firstIndex).getD k 0#8) ∧
      ∀ a, a < dstBase ∨ dstBase + s.n ≤ a → t.byteAt a = s.byteAt a := by
  have hfo : writesFirstOut i = false := by
    cases i with
    | nop | sort | sortCut | bwti | mtfe | mtfd => rfl
    | bwtf | bwtfCut => cases hp
  exact ⟨_, exec_ok i s hop, completedFrom_complete_outputsOf i s, kept_complete_outputsOf i s,
    firstOut_outputsOf_frame i s hfo, fun k hk => dstByte_outputsOf i s k hd hk (fun h => by simp [hp] at h),
    fun a ha => byteAt_outputsOf_frame i s a (fun _ => ha) (fun h => by simp [hp] at h)⟩

/-- Settles O19: it holds, as a command that writes DST alone. -/
theorem bwtiWritesInverse : Obligations.BwtiWritesInverse := by
  unfold Obligations.BwtiWritesInverse
  intro s _ hl hf
  exact exec_of_writesDst_only .bwti s rfl rfl (operandError_bwti s hl hf)

/-- Settles O21: it holds, as commands that write DST alone. -/
theorem mtfWritesDst : Obligations.MtfWritesDst := by
  unfold Obligations.MtfWritesDst
  intro s i out hi hl
  rcases hi with ⟨rfl, rfl⟩ | ⟨rfl, rfl⟩
  · exact exec_of_writesDst_only .mtfe s rfl rfl (operandError_of_len .mtfe s hl (by decide))
  · exact exec_of_writesDst_only .mtfd s rfl rfl (operandError_of_len .mtfd s hl (by decide))

/-- An entry of the last column is the byte before its rotation's offset, wrapping (R140). -/
theorem getD_lastColumn (b : List Byte) (index : List Nat) (r : Nat) (h : r < index.length) :
    (lastColumn b index).getD r 0#8 = b.getD ((index.getD r 0 + b.length - 1) % b.length) 0#8 := by
  rw [List.getD_eq_getElem _ _ (by simpa using h), List.getD_eq_getElem index _ h]
  simp [lastColumn]

/-- Settles O17: it holds; that the sort is a permutation puts offset 0 at a rank below n, which fits the word. -/
theorem bwtfWritesTransform : Obligations.BwtfWritesTransform := by
  unfold Obligations.BwtfWritesTransform
  intro s i cut hi hlegal (h1 : 1 ≤ s.n) (hl : s.n ≤ s.params.nmax)
  have hop : operandError i s = none := operandError_of_len i s hl (by rintro rfl; simp at hi)
  have htable : i.cut = cut ∧ writesPerm i = true ∧ writesDst i = true ∧ writesFirstOut i = true ∧
      dstResult i s.operand s.firstIndex = lastColumn s.operand (sortPerm s.operand cut) := by
    rcases hi with ⟨rfl, rfl⟩ | ⟨rfl, rfl⟩ <;> exact ⟨rfl, rfl, rfl, rfl, rfl⟩
  obtain ⟨rfl, hperm, hdst, hfo, hresult⟩ := htable
  obtain ⟨-, hnmax, -⟩ := (legal_iff s.params).1 hlegal
  have hzero := zero_mem_sortPerm s.operand i.cut (by rw [length_operand]; exact h1)
  have hrank : firstRank (sortPerm s.operand i.cut) < s.n := by simpa using firstRank_lt _ hzero
  have hfirstOut : (outputsOf i s).complete.firstOut.toNat = firstRank (sortPerm s.operand i.cut) := by
    rw [complete_firstOut, firstOut_outputsOf i s hfo, if_neg (by omega), indexWord, BitVec.toNat_ofNat]
    exact Nat.mod_eq_of_lt (by omega)
  refine ⟨_, exec_ok i s hop, completedFrom_complete_outputsOf i s, kept_complete_outputsOf i s,
    fun r hr => permEntry_outputsOf i s r hperm hr, fun r (hr : r < s.n) => ?_, ?_, ?_, fun a had hap => ?_⟩
  · have hmod : ((sortPerm s.operand i.cut).getD r 0 + s.n - 1) % s.n < s.n := Nat.mod_lt _ h1
    calc (outputsOf i s).dstByte r
        = (lastColumn s.operand (sortPerm s.operand i.cut)).getD r 0#8 := by
          rw [dstByte_outputsOf i s r hdst hr (fun _ => by omega), hresult]
      _ = s.operand.getD (((sortPerm s.operand i.cut).getD r 0 + s.n - 1) % s.n) 0#8 := by
          rw [getD_lastColumn _ _ r (by simpa using hr), length_operand]
      _ = _ := getD_operand s _ hmod
  · rw [hfirstOut]
    exact hrank
  · rw [hfirstOut]
    exact (permEntry_outputsOf i s _ hperm hrank).trans (by rw [getD_firstRank _ hzero]; rfl)
  · exact byteAt_outputsOf_frame i s a (fun _ => had) (fun _ => hap)

/-! ### Every command -/

theorem permEntry_congr (s t : State) (k : Nat)
    (h : ∀ a, permBase + 4 * k ≤ a → a < permBase + 4 * k + 4 → t.byteAt a = s.byteAt a) :
    t.permEntry k = s.permEntry k := by
  unfold State.permEntry
  rw [h _ (by omega) (by omega), h _ (by omega) (by omega), h _ (by omega) (by omega), h _ (by omega) (by omega)]

theorem kept_failComplete (s : State) (e : CmdError) : s.kept (s.failComplete e) :=
  ⟨rfl, rfl, rfl, rfl, rfl, rfl, rfl, rfl, rfl⟩

theorem ne_nop_of_writesDst {i : Instr} (h : writesDst i = true) : i ≠ .nop := by rintro rfl; cases h

/-- Settles O57: it holds; a failed command writes nothing, and the windows of R22 keep the outputs of a successful one
apart, since n is at most NMAX. -/
theorem commandsChangeOnlyTheirOutputs : Obligations.CommandsChangeOnlyTheirOutputs := by
  unfold Obligations.CommandsChangeOnlyTheirOutputs
  intro s t i hlegal hexec
  obtain ⟨-, hnmax, -⟩ := (legal_iff s.params).1 hlegal
  rcases exec_cases i s with ⟨e, -, h⟩ | ⟨hop, h⟩ <;> obtain rfl := Host.Outcome.next.inj (h.symm.trans hexec)
  · exact ⟨kept_failComplete s e, rfl, fun _ _ => rfl, fun _ _ _ => rfl, fun _ _ _ => rfl, fun _ => rfl⟩
  have hn : writesDst i = true → s.n ≤ s.params.nmax := fun hd =>
    len_le_nmax_of_operandError i s hop (ne_nop_of_writesDst hd)
  have hframe := byteAt_outputsOf_frame i s
  refine ⟨kept_complete_outputsOf i s, rfl, fun k hk => ?_, fun k hk (hor : s.n ≤ k ∨ _) => ?_,
    fun k hk (hor : s.n ≤ k ∨ _) => ?_, firstOut_outputsOf_frame i s⟩
  · exact hframe (srcBase + k) (fun _ => Or.inl (by simp only [srcBase, dstBase]; omega))
      (fun _ => Or.inl (by simp only [srcBase, permBase]; omega))
  · refine hframe (dstBase + k) (fun hd => Or.inr ?_) (fun _ => Or.inl (by simp only [dstBase, permBase]; omega))
    rcases hor with hor | hor
    · exact Nat.add_le_add_left hor dstBase
    · rw [hd] at hor; cases hor
  · refine permEntry_congr s _ k fun a h1 h2 => hframe a (fun hd => Or.inr ?_) (fun hp => Or.inr ?_)
    · have := hn hd
      simp only [dstBase, permBase] at *
      omega
    · rcases hor with hor | hor
      · omega
      · rw [hp] at hor; cases hor

theorem operand_congr (s u : State) (hl : s.len = u.len) (h : ∀ k, k < s.len.toNat → s.srcByte k = u.srcByte k) :
    s.operand = u.operand := by
  unfold State.operand State.n
  rw [← hl]
  exact List.map_congr_left fun k hk => h k (List.mem_range.1 hk)

/-- Settles O58: it holds, since every output is a function of the operand, FIRST and the instruction. -/
theorem resultsDependOnlyOnOperands : Obligations.ResultsDependOnlyOnOperands := by
  unfold Obligations.ResultsDependOnlyOnOperands
  intro i s u hp hlegal hl hf hsrc
  obtain ⟨-, hnmax, -⟩ := (legal_iff s.params).1 hlegal
  have herr := operandError_congr i s u hl hf hp
  have hoperand := operand_congr s u hl hsrc
  have hn : s.n = u.n := congrArg BitVec.toNat hl
  have hfi : s.firstIndex = u.firstIndex := congrArg BitVec.toNat hf
  rcases exec_cases i s with ⟨e, he, hexec⟩ | ⟨hop, hexec⟩
  · exact ⟨_, _, hexec, (exec_eq_runCommand i u).trans (runCommand_fails i u _ e (herr ▸ he)), herr,
      fun hnone => by rw [he] at hnone; cases hnone⟩
  · refine ⟨_, _, hexec, exec_ok i u (herr ▸ hop), herr, fun _ => ⟨fun hd k (hk : k < s.n) => ?_,
      fun hp k (hk : k < s.n) => ?_, fun hw => ?_⟩⟩
    · have hle : s.n ≤ s.params.nmax := len_le_nmax_of_operandError i s hop (ne_nop_of_writesDst hd)
      calc (outputsOf i s).dstByte k
          = (dstResult i s.operand s.firstIndex).getD k 0#8 := dstByte_outputsOf i s k hd hk (fun _ => by omega)
        _ = (dstResult i u.operand u.firstIndex).getD k 0#8 := by rw [hoperand, hfi]
        _ = (outputsOf i u).dstByte k := (dstByte_outputsOf i u k hd (by omega) (fun _ => by omega)).symm
    · calc (outputsOf i s).permEntry k
          = indexWord ((sortPerm s.operand i.cut).getD k 0) := permEntry_outputsOf i s k hp hk
        _ = indexWord ((sortPerm u.operand i.cut).getD k 0) := by rw [hoperand]
        _ = (outputsOf i u).permEntry k := (permEntry_outputsOf i u k hp (by omega)).symm
    · rw [complete_firstOut, complete_firstOut, firstOut_outputsOf i s hw, firstOut_outputsOf i u hw, hoperand, hn]

end Sys2Proof.Machine
end

section
/-! SUPPORT. The recency list: what its two tables read after a symbol has moved to the front (R161), and that they stay
mutually inverse (R35, R160). -/

namespace Sys2Proof.Machine

theorem getD_identityTable (p : Byte) : identityTable.getD p.toNat 0#8 = p := by
  simp [identityTable, List.getD_eq_getElem?_getD, List.getElem?_range p.isLt]

theorem mutuallyInverse_initial : Recency.initial.mutuallyInverse := by
  refine ⟨by simp [Recency.initial, identityTable], by simp [Recency.initial, identityTable], ?_, ?_⟩ <;>
    intro p <;> simp only [Recency.initial, getD_identityTable]

/-- The position of a symbol after `c` at `idx` has moved to the front. -/
def promotedPosition (idx p : Byte) : Byte := if p.toNat < idx.toNat then p + 1#8 else p

theorem promotedPosition_of_lt {idx p : Byte} (h : p.toNat < idx.toNat) :
    (promotedPosition idx p).toNat = p.toNat + 1 := by
  rw [promotedPosition, if_pos h, BitVec.toNat_add]
  exact Nat.mod_eq_of_lt (by have := idx.isLt; simp only [BitVec.toNat_ofNat]; omega)

theorem promotedPosition_of_ge {idx p : Byte} (h : idx.toNat ≤ p.toNat) : promotedPosition idx p = p :=
  if_neg (Nat.not_lt.2 h)

theorem getD_symbolToPosition_promote_self (t : Recency) (c idx : Byte) (h : t.symbolToPosition.length = 256) :
    (t.promote c idx).symbolToPosition.getD c.toNat 0#8 = 0#8 := by
  have hc : c.toNat < (t.symbolToPosition.map fun p => if p.toNat < idx.toNat then p + 1#8 else p).length := by
    rw [List.length_map, h]
    exact c.isLt
  rw [Recency.promote, List.getD_eq_getElem?_getD, List.getElem?_set_self hc]
  rfl

theorem getD_symbolToPosition_promote_other (t : Recency) (c idx x : Byte) (h : t.symbolToPosition.length = 256)
    (hx : x ≠ c) : (t.promote c idx).symbolToPosition.getD x.toNat 0#8 =
      promotedPosition idx (t.symbolToPosition.getD x.toNat 0#8) := by
  have hlt : x.toNat < t.symbolToPosition.length := h ▸ x.isLt
  have hne : c.toNat ≠ x.toNat := fun e => hx (BitVec.eq_of_toNat_eq e.symm)
  simp [Recency.promote, List.getD_eq_getElem?_getD, List.getElem?_set_ne hne, List.getElem?_eq_getElem hlt,
    promotedPosition]

theorem getD_moveToFront_zero (l : List Byte) (idx : Byte) : (moveToFront l idx).getD 0 0#8 = l.getD idx.toNat 0#8 := rfl

theorem getD_moveToFront_succ_of_lt (l : List Byte) (idx : Byte) (p : Nat) (h : p < idx.toNat) :
    (moveToFront l idx).getD (p + 1) 0#8 = l.getD p 0#8 := by
  simp [moveToFront, List.getD_eq_getElem?_getD, List.getElem?_eraseIdx_of_lt h]

theorem getD_moveToFront_of_gt (l : List Byte) (idx : Byte) (p : Nat) (h : idx.toNat < p) :
    (moveToFront l idx).getD p 0#8 = l.getD p 0#8 := by
  obtain ⟨q, rfl⟩ : ∃ q, p = q + 1 := ⟨p - 1, by omega⟩
  simp [moveToFront, List.getD_eq_getElem?_getD, List.getElem?_eraseIdx_of_ge (Nat.le_of_lt_succ h)]

theorem length_moveToFront (l : List Byte) (idx : Byte) (h : l.length = 256) : (moveToFront l idx).length = 256 := by
  have hidx : idx.toNat < l.length := h ▸ idx.isLt
  rw [moveToFront, List.length_cons, List.length_eraseIdx_of_lt hidx, h]

theorem exists_byte_pred (p : Byte) (h : 0 < p.toNat) : ∃ q : Byte, p.toNat = q.toNat + 1 := by
  refine ⟨BitVec.ofNat 8 (p.toNat - 1), ?_⟩
  rw [BitVec.toNat_ofNat, Nat.mod_eq_of_lt (by have := p.isLt; omega)]
  omega

/-- In mutually inverse tables only one position holds `c` (R35). -/
theorem symbol_ne_of_position_ne (t : Recency) (h : t.mutuallyInverse) (c p : Byte)
    (hp : p ≠ t.symbolToPosition.getD c.toNat 0#8) : t.positionToSymbol.getD p.toNat 0#8 ≠ c := by
  obtain ⟨-, -, hpos, -⟩ := h
  rintro rfl
  exact hp (hpos p).symm

/-- Every symbol keeps the tables mutually inverse: it goes to position 0, those in front of it move one back, and those
behind it stay (R161). -/
theorem mutuallyInverse_promote (t : Recency) (c idx : Byte) (h : t.mutuallyInverse)
    (hidx : idx = t.symbolToPosition.getD c.toNat 0#8) : (t.promote c idx).mutuallyInverse := by
  have hmove := symbol_ne_of_position_ne t h c
  obtain ⟨hsym, hposn, hpos, hback⟩ := h
  have hfront : t.positionToSymbol.getD idx.toNat 0#8 = c := hidx ▸ hback c
  refine ⟨by simpa [Recency.promote] using hsym, length_moveToFront _ _ hposn, fun p => ?_, fun x => ?_⟩
  · show (t.promote c idx).symbolToPosition.getD ((moveToFront t.positionToSymbol idx).getD p.toNat 0#8).toNat 0#8 = p
    rcases Nat.eq_zero_or_pos p.toNat with hp | hp
    · rw [hp, getD_moveToFront_zero, hfront, getD_symbolToPosition_promote_self t c idx hsym]
      exact BitVec.eq_of_toNat_eq hp.symm
    rcases Nat.lt_or_ge idx.toNat p.toNat with hgt | hle
    · have hne : p ≠ t.symbolToPosition.getD c.toNat 0#8 := fun e => hgt.ne (by rw [hidx, e])
      rw [getD_moveToFront_of_gt _ _ _ hgt, getD_symbolToPosition_promote_other t c idx _ hsym (hmove p hne), hpos,
        promotedPosition_of_ge hgt.le]
    · obtain ⟨q, hq⟩ := exists_byte_pred p hp
      have hlt : q.toNat < idx.toNat := by omega
      have hne : q ≠ t.symbolToPosition.getD c.toNat 0#8 := fun e => hlt.ne (by rw [hidx, e])
      rw [hq, getD_moveToFront_succ_of_lt _ _ _ hlt, getD_symbolToPosition_promote_other t c idx _ hsym (hmove q hne),
        hpos]
      exact BitVec.eq_of_toNat_eq ((promotedPosition_of_lt hlt).trans hq.symm)
  · show (moveToFront t.positionToSymbol idx).getD ((t.promote c idx).symbolToPosition.getD x.toNat 0#8).toNat 0#8 = x
    by_cases hx : x = c
    · rw [hx, getD_symbolToPosition_promote_self t c idx hsym]
      exact hfront
    rw [getD_symbolToPosition_promote_other t c idx x hsym hx]
    rcases lt_trichotomy (t.symbolToPosition.getD x.toNat 0#8).toNat idx.toNat with hlt | heq | hgt
    · rw [promotedPosition_of_lt hlt, getD_moveToFront_succ_of_lt _ _ _ hlt, hback]
    · exact absurd ((hback x).symm.trans (BitVec.eq_of_toNat_eq heq ▸ hfront)) hx
    · rw [promotedPosition_of_ge hgt.le, getD_moveToFront_of_gt _ _ _ hgt, hback]

/-- Settles O33: it holds, from the start of R160 and the update of R161. -/
theorem recencyTablesStayInverse : Obligations.RecencyTablesStayInverse := by
  unfold Obligations.RecencyTablesStayInverse
  exact ⟨mutuallyInverse_initial, fun t c h => mutuallyInverse_promote t c _ h rfl⟩

end Sys2Proof.Machine
end

section
/-! SUPPORT. Rules of the whole block: what a step can change while BUSY (R34, R240), what changes FIRST_OUT (R28), and a
write and a completion in either order (R207). -/

namespace Sys2Proof.Machine

/-! ### The operands are frozen while BUSY -/

/-- What every completion step leaves, failed or not: the registers of R38, and every byte below DST. -/
theorem exec_frame (i : Instr) (s t : State) (h : exec i s = .next t) :
    s.kept t ∧ t.engine = .idle ∧ ∀ a, a < dstBase → t.byteAt a = s.byteAt a := by
  rcases exec_cases i s with ⟨e, -, hx⟩ | ⟨-, hx⟩ <;> obtain rfl := Host.Outcome.next.inj (hx.symm.trans h)
  · exact ⟨kept_failComplete s e, rfl, fun _ _ => rfl⟩
  · refine ⟨kept_complete_outputsOf i s, rfl, fun a ha => ?_⟩
    exact byteAt_outputsOf_frame i s a (fun _ => Or.inl ha) (fun _ => Or.inl (by simp only [dstBase, permBase] at *; omega))

/-- While BUSY a write reaches STATUS and IRQ_EN alone (R65, R240). -/
theorem memWrite_busy_frame (s : State) (off : Nat) (v : Word) (latency : Nat) (ha : off % 4 = 0) (hb : s.busy = true) :
    (s.memWrite off v latency).len = s.len ∧ (s.memWrite off v latency).first = s.first ∧
    (s.memWrite off v latency).cmd = s.cmd ∧ (s.memWrite off v latency).mem = s.mem ∧
    (s.memWrite off v latency).engine = s.engine := by
  have hno : s.busy ≠ false := by rw [hb]; decide
  rcases memWrite_cases s off v latency ha with
    ⟨-, -, e⟩ | e | ⟨hidle, -⟩ | ⟨-, e⟩ | ⟨hidle, -⟩ | ⟨hidle, -⟩ | ⟨-, e⟩ | ⟨hidle, -⟩
  · rw [e]; exact ⟨rfl, rfl, rfl, rfl, rfl⟩
  · rw [e]; exact ⟨rfl, rfl, rfl, rfl, rfl⟩
  · exact absurd hidle hno
  · rw [e]; exact ⟨rfl, rfl, rfl, rfl, rfl⟩
  · exact absurd hidle hno
  · exact absurd hidle hno
  · rw [e]; exact ⟨rfl, rfl, rfl, rfl, rfl⟩
  · exact absurd hidle hno

/-- `t` has the operands of `s`, and its engine is done with command `i` or still runs it with no more time left (R34). -/
def State.operandsFrozen (s t : State) (i : Instr) (k : Nat) : Prop :=
  t.len = s.len ∧ t.first = s.first ∧ t.cmd = s.cmd ∧ t.params = s.params ∧
    (∀ a, 0x100000 ≤ a → a < 0x200000 → t.byteAt a = s.byteAt a) ∧
    (t.engine = .idle ∨ ∃ k', t.engine = .busy i k' ∧ k' ≤ k)

theorem operandsFrozen_request (s : State) (r : Request) (latency : Nat) (i : Instr) (k : Nat)
    (hE : s.engine = .busy i k) : s.operandsFrozen (s.request r latency) i k := by
  have happly : s.operandsFrozen (s.applyRequest r latency) i k := by
    rcases applyRequest_cases s r latency with e | ⟨v, -, -, ha, e⟩ <;> rw [e]
    · exact ⟨rfl, rfl, rfl, rfl, fun _ _ _ => rfl, Or.inr ⟨k, hE, le_rfl⟩⟩
    · obtain ⟨hlen, hfirst, hcmd, hmem, heng⟩ := memWrite_busy_frame s _ v latency ha (busy_of_engine_busy s i k hE)
      obtain ⟨hparams, -, -, -, -, hresets⟩ := memWrite_frame s r.offset.toNat v latency ha
      exact ⟨hlen, hfirst, hcmd, hparams, fun a _ _ => byteAt_congr s _ a (by rw [hmem]) hresets,
        Or.inr ⟨k, heng.trans hE, le_rfl⟩⟩
  exact happly

theorem operandsFrozen_passCycle (s t : State) (i : Instr) (k : Nat) (hE : s.engine = .busy i k)
    (h : s.passCycle = .next t) : s.operandsFrozen t i k := by
  rcases Nat.lt_or_ge 1 k with hk | hk
  · rw [passCycle_waits s i k hE hk] at h
    obtain rfl := Host.Outcome.next.inj h
    exact ⟨rfl, rfl, rfl, rfl, fun _ _ _ => rfl, Or.inr ⟨k - 1, rfl, by omega⟩⟩
  · rw [passCycle_due s i k hE hk] at h
    obtain ⟨⟨hparams, hcmd, hlen, hfirst, -⟩, hidle, hbytes⟩ := exec_frame i s t h
    exact ⟨hlen, hfirst, hcmd, hparams, fun a _ ha => hbytes a ha, Or.inl hidle⟩

/-- Settles O55: it holds for a cycle and for a request, which are all the steps but a reset. -/
theorem operandsAreFrozenWhileBusy : Obligations.OperandsAreFrozenWhileBusy := by
  unfold Obligations.OperandsAreFrozenWhileBusy
  intro s t i k hE h
  rcases step_cases s t h with ⟨-, hc⟩ | ⟨rest, -, hc⟩ | ⟨r, latency, rest, -, rfl⟩ | ⟨rest, hin, -⟩
  · exact Or.inr (operandsFrozen_passCycle s t i k hE hc)
  · exact Or.inr (operandsFrozen_passCycle (s.setInputs rest) t i k hE hc)
  · exact Or.inr (operandsFrozen_request (s.setInputs rest) r latency i k hE)
  · exact Or.inl ⟨rest, hin⟩

/-! ### FIRST_OUT -/

theorem firstOut_request (s : State) (r : Request) (latency : Nat) : (s.request r latency).firstOut = s.firstOut := by
  have happly : (s.applyRequest r latency).firstOut = s.firstOut := by
    rcases applyRequest_cases s r latency with e | ⟨v, -, -, ha, e⟩ <;> rw [e]
    obtain ⟨-, hfo, -⟩ := memWrite_frame s r.offset.toNat v latency ha
    exact hfo
  exact happly

theorem firstOut_exec (i : Instr) (s t : State) (h : exec i s = .next t) (hne : t.firstOut ≠ s.firstOut) :
    i = .bwtf ∨ i = .bwtfCut := by
  have hw : writesFirstOut i = true := by
    by_contra hw
    rcases exec_cases i s with ⟨e, -, hx⟩ | ⟨-, hx⟩ <;> obtain rfl := Host.Outcome.next.inj (hx.symm.trans h)
    · exact hne rfl
    · exact hne (firstOut_outputsOf_frame i s (by simpa using hw))
  cases i with
  | nop | sort | sortCut | bwti | mtfe | mtfd => cases hw
  | bwtf => exact Or.inl rfl
  | bwtfCut => exact Or.inr rfl

theorem firstOut_passCycle (s t : State) (h : s.passCycle = .next t) (hne : t.firstOut ≠ s.firstOut) :
    ∃ i k, s.engine = .busy i k ∧ k ≤ 1 ∧ (i = .bwtf ∨ i = .bwtfCut) := by
  rcases passCycle_cases s t h with ⟨-, rfl⟩ | ⟨i, k, -, -, rfl⟩ | ⟨i, k, hE, hk, hx⟩
  · exact absurd rfl hne
  · exact absurd rfl hne
  · exact ⟨i, k, hE, hk, firstOut_exec i s t hx hne⟩

/-- Settles O56: it holds, by the cases of a step. -/
theorem onlyBwtfWritesFirstOut : Obligations.OnlyBwtfWritesFirstOut := by
  unfold Obligations.OnlyBwtfWritesFirstOut
  intro s t h hne
  rcases step_cases s t h with ⟨hin, hc⟩ | ⟨rest, hin, hc⟩ | ⟨r, latency, rest, -, rfl⟩ | ⟨rest, hin, -⟩
  · obtain ⟨i, k, hE, hk, hi⟩ := firstOut_passCycle s t hc hne
    exact Or.inr ⟨i, k, hE, hk, hi, Or.inl hin⟩
  · obtain ⟨i, k, hE, hk, hi⟩ := firstOut_passCycle (s.setInputs rest) t hc hne
    exact Or.inr ⟨i, k, hE, hk, hi, Or.inr ⟨rest, hin⟩⟩
  · exact absurd (firstOut_request (s.setInputs rest) r latency) hne
  · exact Or.inl ⟨rest, hin⟩

/-! ### A write and a completion in either order -/

/-- `u` has the operands, the buffers and FIRST_OUT of `s`: all that a command's outputs are made from. -/
def State.agreesOnBlock (s u : State) : Prop :=
  u.mem = s.mem ∧ u.resets = s.resets ∧ u.len = s.len ∧ u.first = s.first ∧ u.firstOut = s.firstOut

theorem outputsOf_congr (i : Instr) (s u : State) (h : s.agreesOnBlock u) :
    (outputsOf i u).mem = (outputsOf i s).mem ∧ (outputsOf i u).firstOut = (outputsOf i s).firstOut := by
  obtain ⟨hmem, hresets, hlen, hfirst, hfo⟩ := h
  have hoperand : u.operand = s.operand :=
    operand_congr u s hlen fun k _ => byteAt_congr s u _ (by rw [hmem]) hresets
  have hn : u.n = s.n := congrArg BitVec.toNat hlen
  have hfi : u.firstIndex = s.firstIndex := congrArg BitVec.toNat hfirst
  cases i with
  | nop => exact ⟨hmem, hfo⟩
  | sort | sortCut => simp [outputsOf, State.storePerm, hoperand, hmem, hfo]
  | bwtf | bwtfCut =>
    by_cases h0 : s.n = 0 <;> simp [outputsOf, bwtForward, State.storePerm, State.storeDst, hoperand, hmem, hn, h0]
  | bwti | mtfe | mtfd => simp [outputsOf, State.storeDst, hoperand, hmem, hfo, hfi]

/-- A state whose buffers and FIRST_OUT are what command `i` makes of `s`. -/
def State.hasResults (s t : State) (i : Instr) : Prop :=
  t.mem = (outputsOf i s).mem ∧ t.resets = s.resets ∧ t.firstOut = (outputsOf i s).firstOut

theorem hasResults_unique (s t u : State) (i : Instr) (ht : s.hasResults t i) (hu : s.hasResults u i) :
    (∀ a, t.byteAt a = u.byteAt a) ∧ t.firstOut = u.firstOut := by
  obtain ⟨htm, htr, htf⟩ := ht
  obtain ⟨hum, hur, huf⟩ := hu
  exact ⟨fun a => byteAt_congr u t a (by rw [htm, hum]) (htr.trans hur.symm), htf.trans huf.symm⟩

theorem hasResults_complete (s u : State) (i : Instr) (h : s.agreesOnBlock u) :
    s.hasResults (outputsOf i u).complete i := by
  obtain ⟨hmem, hfo⟩ := outputsOf_congr i s u h
  obtain ⟨-, -, -, -, -, -, -, -, -, hresets⟩ := outputsOf_frame i u
  obtain ⟨-, hr, -⟩ := h
  exact ⟨hmem, hresets.trans hr, hfo⟩

/-- A protected write while BUSY leaves a block that differs in OVR, the response and the count alone (R240). -/
theorem exists_step_dropped (s : State) (reg : Reg) (v : Word) (latency : Nat) (rest : List Input)
    (hb : s.busy = true) (hp : (Loc.reg reg).isProtected s.nmax = true)
    (hin : s.inputs = .request (wrRequest (.reg reg) v) latency :: rest) :
    ∃ d, step s = .next d ∧ d.inputs = rest ∧ d.engine = s.engine ∧ d.params = s.params ∧ d.cmd = s.cmd ∧
      d.status.ovr = true ∧ s.agreesOnBlock d :=
  ⟨_, step_writeReg_dropped s reg v latency rest hb hp hin, rfl, rfl, rfl, rfl, rfl, rfl, rfl, rfl, rfl, rfl⟩

/-- First the write, dropped with OVR, then the completion (R240, R104). -/
theorem runSteps_dropped_then_complete (s : State) (i : Instr) (k : Nat) (reg : Reg) (v : Word) (latency : Nat)
    (hE : s.engine = .busy i k) (hk : k ≤ 1) (hop : operandError i s = none)
    (hp : (Loc.reg reg).isProtected s.nmax = true) :
    ∃ t, runSteps 2 (s.setInputs [.request (wrRequest (.reg reg) v) latency, .cycle]) = .next t ∧
      t.len = s.len ∧ t.cmd = s.cmd ∧ t.engine = .idle ∧ t.status.done = true ∧ t.status.ovr = true ∧
      s.hasResults t i := by
  obtain ⟨d, hdrop, hin, heng, hparams, hcmd, hovr, hmem, hresets, hlen, hfirst, hfo⟩ :=
    exists_step_dropped (s.setInputs [.request (wrRequest (.reg reg) v) latency, .cycle]) reg v latency [.cycle]
      (busy_of_engine_busy s i k hE) hp rfl
  have hdone := step_completes d i k [] (heng.trans hE) hk
    ((operandError_congr i d s hlen hfirst hparams).trans hop) (Or.inl hin)
  obtain ⟨-, htcmd, htlen, -⟩ := kept_complete_outputsOf i (d.setInputs [])
  obtain ⟨-, hstatus⟩ := completedFrom_complete_outputsOf i (d.setInputs [])
  exact ⟨_, runSteps_two hdrop hdone, htlen.trans hlen, htcmd.trans hcmd, rfl, rfl, by rw [hstatus]; exact hovr,
    hasResults_complete s (d.setInputs []) i ⟨hmem, hresets, hlen, hfirst, hfo⟩⟩

/-- First the completion, then the write to the IDLE block (R104, R65). -/
theorem runSteps_complete_then_write (s : State) (i : Instr) (k : Nat) (reg : Reg) (v : Word) (latency : Nat)
    (hE : s.engine = .busy i k) (hk : k ≤ 1) (hop : operandError i s = none) :
    ∃ c : State, runSteps 2 (s.setInputs [.cycle, .request (wrRequest (.reg reg) v) latency]) =
        .next (((c.writeReg v latency reg).setResponse (some { rdata := none, err := false })).setDraws (s.draws + 1)) ∧
      c.engine = .idle ∧ c.params = s.params ∧ c.len = s.len ∧ c.first = s.first ∧ c.status.done = true ∧
      c.status.ovr = s.status.ovr ∧ s.hasResults c i := by
  have hdone := step_completes (s.setInputs [.cycle, .request (wrRequest (.reg reg) v) latency]) i k _ hE hk
    ((operandError_congr i _ s rfl rfl rfl).trans hop) (Or.inl rfl)
  obtain ⟨hparams, -, hlen, hfirst, -, hin, -, hdraws, -⟩ :=
    kept_complete_outputsOf i (s.setInputs [.request (wrRequest (.reg reg) v) latency])
  obtain ⟨hidle, hstatus⟩ := completedFrom_complete_outputsOf i (s.setInputs [.request (wrRequest (.reg reg) v) latency])
  have hwrite := step_writeReg _ reg v latency [] (Or.inl hidle) hin
  rw [hdraws] at hwrite
  exact ⟨_, runSteps_two hdone hwrite, hidle, hparams, hlen, hfirst, rfl, by rw [setInputs_status, hstatus]; rfl,
    hasResults_complete s _ i ⟨rfl, rfl, rfl, rfl, rfl⟩⟩

/-- The LEN write in either order with a completion. -/
theorem lenWrite_either_order (s : State) (i : Instr) (k latency : Nat) (v : Word) (hE : s.engine = .busy i k)
    (hk : k ≤ 1) (hop : operandError i s = none) :
    ∃ t u,
      runSteps 2 (s.setInputs [.request (wrRequest (.reg .len) v) latency, .cycle]) = .next t ∧
      runSteps 2 (s.setInputs [.cycle, .request (wrRequest (.reg .len) v) latency]) = .next u ∧
      t.len = s.len ∧ t.status.ovr = true ∧ u.len = v ∧ u.status.ovr = s.status.ovr ∧
      t.engine = .idle ∧ u.engine = .idle ∧ t.status.done = true ∧ u.status.done = true ∧
      (∀ a, t.byteAt a = u.byteAt a) ∧ t.firstOut = u.firstOut := by
  obtain ⟨t, ht, htlen, -, htidle, htdone, htovr, htres⟩ :=
    runSteps_dropped_then_complete s i k .len v latency hE hk hop rfl
  obtain ⟨c, hu, hidle, -, -, -, hdone, hovr, hres⟩ := runSteps_complete_then_write s i k .len v latency hE hk hop
  exact ⟨t, _, ht, hu, htlen, htovr, rfl, hovr, htidle, hidle, htdone, hdone, hasResults_unique s t _ i htres hres⟩

/-- The CMD write in either order with a completion: dropped, or an acceptance with both its ends (R101, R102). -/
theorem cmdWrite_either_order (s : State) (i : Instr) (k latency : Nat) (v : Word) (hE : s.engine = .busy i k)
    (hk : k ≤ 1) (hop : operandError i s = none) :
    ∃ t u,
      runSteps 2 (s.setInputs [.request (cmdWrite v) latency, .cycle]) = .next t ∧
      runSteps 2 (s.setInputs [.cycle, .request (cmdWrite v) latency]) = .next u ∧
      t.cmd = s.cmd ∧ t.engine = .idle ∧ t.status.done = true ∧ t.status.ovr = true ∧
      u.cmd = v ∧ u.status.ovr = s.status.ovr ∧
      (∀ j, validate v s = .instr j → u.engine = .busy j (latency + 1) ∧
        u.status = { done := false, err := false, ovr := s.status.ovr, errcode := 0#4 }) ∧
      (∀ e, validate v s = .error e → u.engine = .idle ∧
        u.status = { done := true, err := true, ovr := s.status.ovr, errcode := e.code }) ∧
      (∀ a, t.byteAt a = u.byteAt a) ∧ t.firstOut = u.firstOut := by
  obtain ⟨t, ht, -, htcmd, htidle, htdone, htovr, htres⟩ :=
    runSteps_dropped_then_complete s i k .cmd v latency hE hk hop rfl
  obtain ⟨c, hu, -, hparams, hlen, hfirst, -, hovr, hres⟩ := runSteps_complete_then_write s i k .cmd v latency hE hk hop
  have hv : validate v c = validate v s := validate_congr v c s hlen hfirst hparams
  rw [State.writeReg] at hu
  rcases accept_cases c v latency with ⟨e, he, ha⟩ | ⟨j, hj, ha⟩ <;> rw [ha] at hu
  · refine ⟨t, _, ht, hu, htcmd, htidle, htdone, htovr, rfl, hovr, fun j' hj' => ?_, fun e' he' => ?_,
      hasResults_unique s t _ i htres hres⟩
    · cases hj'.symm.trans (hv.symm.trans he)
    · cases he'.symm.trans (hv.symm.trans he)
      exact ⟨rfl, (status_accepted_failed c.status e).trans (by rw [hovr])⟩
  · refine ⟨t, _, ht, hu, htcmd, htidle, htdone, htovr, rfl, hovr, fun j' hj' => ?_, fun e' he' => ?_,
      hasResults_unique s t _ i htres hres⟩
    · cases hj'.symm.trans (hv.symm.trans hj)
      exact ⟨rfl, congrArg (fun o => (⟨false, false, o, 0#4⟩ : Status)) hovr⟩
    · cases he'.symm.trans (hv.symm.trans hj)

/-- Settles O59: it holds, for the LEN write and for the CMD write. -/
theorem writeAndCompletionComeInEitherOrder : Obligations.WriteAndCompletionComeInEitherOrder := by
  unfold Obligations.WriteAndCompletionComeInEitherOrder
  exact fun s i k latency v hE hk hop =>
    ⟨lenWrite_either_order s i k latency v hE hk hop, cmdWrite_either_order s i k latency v hE hk hop⟩

end Sys2Proof.Machine
end

section
/-! SUPPORT. The host's accesses through the bus: what an aligned read answers (R64), what a write to a byte window
stores (R63, R65), and the platform's routing (R61). -/

namespace Sys2Proof.Machine

/-! ### What a read answers -/

/-- Lane `j` of a bus word made of four consecutive bytes (R63). -/
theorem laneOf_wordOfBytes_consecutive (f : Nat → Byte) (k j : Nat) (hj : j < 4) :
    laneOf (wordOfBytes (f k) (f (k + 1)) (f (k + 2)) (f (k + 3))) j = f (k + j) := by
  rw [laneOf_wordOfBytes _ _ _ _ j hj]
  interval_cases j <;> rfl

/-- A read of the SRC window (R64). -/
theorem laneOf_memRead_src (s : State) (any : Word) (off j : Nat) (hmod : off % 4 = 0) (h1 : 0x100000 ≤ off)
    (h2 : off < 0x200000) (hj : j < 4) : laneOf (s.memRead any off) j = s.srcLane (off - 0x100000 + j) := by
  rw [State.memRead, locOf_src off h1 h2]
  simp only [laneOf_wordOfBytes_consecutive s.srcLane _ j hj]
  rw [show 4 * ((off - 0x100000) / 4) = off - 0x100000 by omega]

/-- A read of the DST window (R64). -/
theorem laneOf_memRead_dst (s : State) (any : Word) (off j : Nat) (hmod : off % 4 = 0) (h1 : 0x200000 ≤ off)
    (h2 : off < 0x300000) (hj : j < 4) : laneOf (s.memRead any off) j = s.dstLane any (off - 0x200000 + j) := by
  rw [State.memRead, locOf_dst off h1 h2]
  simp only [laneOf_wordOfBytes_consecutive (s.dstLane any) _ j hj]
  rw [show 4 * ((off - 0x200000) / 4) = off - 0x200000 by omega]

/-- A lane of DST while BUSY is its own lane of the draw (R64, R241). -/
theorem dstLane_aligned (s : State) (any : Word) (i j : Nat) (hi : i % 4 = 0) (hj : j < 4) :
    s.dstLane any (i + j) =
      if s.nmax ≤ i + j then 0#8 else if s.busy = true then laneOf any j else s.dstByte (i + j) := by
  rw [State.dstLane, show (i + j) % 4 = j by omega]

/-- A read of the PERM window (R64). -/
theorem memRead_perm (s : State) (any : Word) (off : Nat) (h1 : 0x400000 ≤ off) (h2 : off < 0x800000) :
    s.memRead any off =
      if s.nmax ≤ (off - 0x400000) / 4 then 0#32
      else if s.busy = true then any else s.permEntry ((off - 0x400000) / 4) := by
  rw [State.memRead, locOf_perm off h1 h2]

/-- A read of a reserved offset (R30). -/
theorem memRead_reserved (s : State) (any : Word) (off : Nat)
    (h : off = 0x0C ∨ 0x28 ≤ off ∧ off < 0x100000 ∨ 0x300000 ≤ off ∧ off < 0x400000) : s.memRead any off = 0#32 := by
  rw [State.memRead, locOf_reserved off h]

/-- Settles O39: it holds, window by window and register by register. -/
theorem alignedReadAnswers : Obligations.AlignedReadAnswers := by
  unfold Obligations.AlignedReadAnswers
  intro s r latency rest off hin hk hs hoff hmod
  subst hoff
  have hreg : ∀ reg : Reg, r.offset.toNat = reg.offset →
      (s.setInputs rest).memRead s.nextAny r.offset.toNat = (s.setInputs rest).readReg s.nextAny reg :=
    fun reg h => h ▸ memRead_reg _ _ reg
  refine ⟨_, step_read s r latency rest hin hk hs hmod, fun h1 h2 j hj => ?_, fun h1 h2 j hj => ?_,
    fun h => memRead_perm _ _ _ h r.offset.isLt, hreg .id, hreg .version, hreg .caps, hreg .cmd, hreg .status,
    hreg .len, hreg .first, hreg .firstOut, hreg .irqEn, memRead_reserved _ _ _⟩
  · exact laneOf_memRead_src _ _ _ j hmod h1 h2 hj
  · exact (laneOf_memRead_dst _ _ _ j hmod h1 h2 hj).trans (dstLane_aligned _ _ _ j (by omega) hj)

/-! ### What a write to a byte window stores -/

@[simp] theorem writeLane_nmax (s : State) (base j : Nat) (b : Byte) : (s.writeLane base j b).nmax = s.nmax := by
  unfold State.writeLane
  split <;> rfl

@[simp] theorem writeLane_resets (s : State) (base j : Nat) (b : Byte) : (s.writeLane base j b).resets = s.resets := by
  unfold State.writeLane
  split <;> rfl

/-- Reading the storage after a byte lane has been written (R65). -/
theorem read?_writeLane (s : State) (base j : Nat) (b : Byte) (a : Nat) :
    (s.writeLane base j b).mem.read? a = if j < s.nmax ∧ a = base + j then some b else s.mem.read? a := by
  unfold State.writeLane
  by_cases hj : j < s.nmax
  · rw [if_pos hj, setMem_mem, Memory.read?_write]
    simp only [hj, true_and]
  · rw [if_neg hj, if_neg fun h => hj h.1]

/-- Reading the storage after a word has been written: lane `j` at its offset below NMAX, every other offset as before. -/
theorem read?_writeWord_lane (s : State) (base k : Nat) (v : Word) (j : Nat) (hj : j < 4) (h : 4 * k + j < s.nmax) :
    (s.writeWord base k v).mem.read? (base + (4 * k + j)) = some (laneOf v j) := by
  simp only [State.writeWord, read?_writeLane, writeLane_nmax]
  interval_cases j <;> simp <;> omega

theorem read?_writeWord_other (s : State) (base k : Nat) (v : Word) (a : Nat)
    (h : a < base + 4 * k ∨ base + 4 * k + 4 ≤ a ∨ base + s.nmax ≤ a) :
    (s.writeWord base k v).mem.read? a = s.mem.read? a := by
  simp only [State.writeWord, read?_writeLane, writeLane_nmax]
  iterate 4 rw [if_neg (by omega)]

@[simp] theorem byteAt_setResponse (s : State) (v : Option Response) (a : Nat) :
    (s.setResponse v).byteAt a = s.byteAt a := rfl

@[simp] theorem byteAt_setDraws (s : State) (v a : Nat) : (s.setDraws v).byteAt a = s.byteAt a := rfl

/-- The buffer bytes after a word has been written (R65). -/
theorem byteAt_writeWord_lane (s : State) (base k : Nat) (v : Word) (j : Nat) (hj : j < 4) (h : 4 * k + j < s.nmax) :
    (s.writeWord base k v).byteAt (base + (4 * k + j)) = laneOf v j := by
  rw [State.byteAt, read?_writeWord_lane s base k v j hj h, Option.getD_some]

theorem byteAt_writeWord_other (s : State) (base k : Nat) (v : Word) (a : Nat)
    (h : a < base + 4 * k ∨ base + 4 * k + 4 ≤ a ∨ base + s.nmax ≤ a) :
    (s.writeWord base k v).byteAt a = s.byteAt a :=
  byteAt_congr s _ a (read?_writeWord_other s base k v a h) (by simp only [State.writeWord, writeLane_resets])

/-- A write to the SRC or DST window while IDLE (R65). -/
theorem memWrite_byteWindow (s : State) (off base : Nat) (v : Word) (latency : Nat) (he : s.engine = .idle)
    (hb : base = srcBase ∨ base = dstBase) (h1 : base ≤ off) (h2 : off < base + 0x100000) :
    s.memWrite off v latency = s.writeWord base ((off - base) / 4) v := by
  rw [State.memWrite, busy_of_engine_idle s he, Bool.false_and, if_neg Bool.false_ne_true]
  rcases hb with rfl | rfl
  · rw [locOf_src off h1 h2]
  · rw [locOf_dst off h1 h2]

/-- Settles O41: it holds; the write is its four lanes, and no lane lies at or beyond NMAX. -/
theorem bufferWriteStoresLanes : Obligations.BufferWriteStoresLanes := by
  unfold Obligations.BufferWriteStoresLanes
  intro s r v latency rest off base hin he hk hs hoff hmod hb h1 h2
  subst hoff
  have hstep := step_write s r v latency rest hin hk hs hmod
  rw [memWrite_byteWindow (s.setInputs rest) _ base v latency he hb h1 h2] at hstep
  obtain ⟨k, hoff⟩ : ∃ k, r.offset.toNat = base + 4 * k := ⟨(r.offset.toNat - base) / 4, by omega⟩
  rw [hoff] at hstep ⊢
  rw [show (base + 4 * k - base) / 4 = k by omega] at hstep
  obtain ⟨m, hm, -⟩ := writeWord_bufferWrite (s.setInputs rest) base k v hb
  refine ⟨_, hstep, ?_, fun j hj hlt => ?_, fun a ha => ?_⟩
  · rw [hm]
    rfl
  · rw [byteAt_setDraws, byteAt_setResponse, Nat.add_assoc]
    exact byteAt_writeWord_lane (s.setInputs rest) base k v j hj (show 4 * k + j < s.params.nmax by omega)
  · rw [byteAt_setDraws, byteAt_setResponse]
    exact byteAt_writeWord_other (s.setInputs rest) base k v a ha

/-! ### The platform's routing -/

/-- An address of the window is routed at its distance from BASE (R61). -/
theorem route_inside (p : Params) (a : Nat) (h : p.base ≤ a ∧ a < p.base + Config.windowSize) :
    p.route a = some (BitVec.ofNat 23 (a - p.base)) := if_pos h

theorem route_outside (p : Params) (a : Nat) (h : ¬(p.base ≤ a ∧ a < p.base + Config.windowSize)) :
    p.route a = none := if_neg h

/-- Settles O47: it holds, by the two ends of the routing. -/
theorem platformRoutesTheWindow : Obligations.PlatformRoutesTheWindow := by
  unfold Obligations.PlatformRoutesTheWindow
  refine fun s kind a size latency => ⟨fun h => ⟨BitVec.ofNat 23 (a - s.params.base), ?_, ?_⟩, fun h => ?_⟩
  · rw [BitVec.toNat_ofNat, Nat.mod_eq_of_lt (by omega)]
  · rw [State.hostAccess, route_inside s.params a (by rw [Config.windowSize]; omega)]
  · rw [State.hostAccess, route_outside s.params a (by rw [Config.windowSize]; omega)]

end Sys2Proof.Machine
end

section
/-! SUPPORT. Runs of the host's statements from an IDLE block (R88, R89): the slots of a request, LOAD word by word, and
that LOAD with the LEN write makes the operand. -/

namespace Sys2Proof.Machine

/-! ### Runs of a statement's slots -/

theorem runSteps_add (j k : Nat) (s t : State) (h : runSteps j s = .next t) : runSteps (j + k) s = runSteps k t := by
  induction j generalizing s with
  | zero =>
    cases h
    rw [Nat.zero_add]
  | succ j ih =>
    rw [runSteps] at h
    split at h
    case h_1 u hstep => rw [Nat.succ_add, runSteps_succ (j + k) s u hstep, ih u h]
    case h_2 => cases h
    case h_3 => cases h

/-- Cycles pass an IDLE block by (R104). -/
theorem runSteps_cycles_idle (c : Nat) (s : State) (rest : List Input) (he : s.engine = .idle)
    (hin : s.inputs = List.replicate c .cycle ++ rest) : runSteps c s = .next (s.setInputs rest) := by
  induction c generalizing s with
  | zero =>
    subst hin
    rfl
  | succ c ih =>
    have hstep := (step_cycle s _ hin).trans (passCycle_idle (s.setInputs (List.replicate c .cycle ++ rest)) he)
    exact (runSteps_succ c s _ hstep).trans (ih _ he rfl)

/-- The slot of the first request, and the slots of the rest. -/
theorem slots_cons (latency : Nat) (r : Request) (rs : List Request) (cycles : List Nat) :
    slots latency (r :: rs) cycles =
      List.replicate (cycles.headD 0) .cycle ++ .request r latency :: slots latency rs cycles.tail := by
  cases cycles <;> rfl

/-- The slots of a first request that finds the block IDLE: its cycles do nothing. -/
theorem runSteps_slots_cons (latency : Nat) (r : Request) (rs : List Request) (cycles : List Nat) (tail : List Input)
    (s u t : State) (he : s.engine = .idle) (hin : s.inputs = slots latency (r :: rs) cycles ++ tail)
    (hu : (s.setInputs (slots latency rs cycles.tail ++ tail)).request r latency = u)
    (ht : runSteps (slots latency rs cycles.tail).length u = .next t) :
    runSteps (slots latency (r :: rs) cycles).length s = .next t := by
  rw [slots_cons, List.append_assoc, List.cons_append] at hin
  have hcycles := runSteps_cycles_idle _ s _ he hin
  have hstep := (step_request (s.setInputs (.request r latency :: (slots latency rs cycles.tail ++ tail))) r latency _
    rfl).trans (congrArg _ hu)
  rw [slots_cons, List.length_append, List.length_replicate, List.length_cons, runSteps_add _ _ s _ hcycles,
    runSteps_succ _ _ u hstep, ht]

/-- A register write that takes effect, as one request (R65). -/
theorem request_writeReg (s : State) (reg : Reg) (v : Word) (latency : Nat)
    (h : s.engine = .idle ∨ (Loc.reg reg).isProtected s.nmax = false) :
    s.request (wrRequest (.reg reg) v) latency =
      ((s.writeReg v latency reg).setResponse (some { rdata := none, err := false })).setDraws (s.draws + 1) := by
  have hoff := wrRequest_reg_offset reg v
  rw [request_write s _ v latency rfl rfl (hoff ▸ offset_mod_four reg), hoff, memWrite_reg s reg v latency h]

/-! ### LOAD -/

/-- The first word of a LOAD: bytes past the end taken as zero (R89). -/
def firstWord (bytes : List Byte) : Word :=
  wordOfBytes (bytes.getD 0 0#8) (bytes.getD 1 0#8) (bytes.getD 2 0#8) (bytes.getD 3 0#8)

theorem laneOf_firstWord (bytes : List Byte) (j : Nat) (hj : j < 4) : laneOf (firstWord bytes) j = bytes.getD j 0#8 := by
  have h := laneOf_wordOfBytes_consecutive (fun i => bytes.getD i 0#8) 0 j hj
  simpa only [firstWord, Nat.zero_add] using h

/-- LOAD writes its first word and goes on with the bytes after it (R89). -/
theorem loadFrom_of_ne_nil (k : Nat) (bytes : List Byte) (h : bytes ≠ []) :
    loadFrom k bytes = wrRequest (.src (4 * k)) (firstWord bytes) :: loadFrom (k + 1) (bytes.drop 4) := by
  match bytes with
  | [] => exact absurd rfl h
  | [_] | [_, _] | [_, _, _] | _ :: _ :: _ :: _ :: _ => rfl

/-- `t` differs from `s` at most in the buffers, the schedule, and the model's record of responses. -/
def State.differsInBuffers (s t : State) : Prop :=
  t = (((s.setMem t.mem).setInputs t.inputs).setResponse t.response).setDraws t.draws

theorem differsInBuffers_trans {s t u : State} (h1 : s.differsInBuffers t) (h2 : t.differsInBuffers u) :
    s.differsInBuffers u := by
  unfold State.differsInBuffers at *
  rw [h1] at h2
  exact h2

theorem differsInBuffers_setInputs (s : State) (inputs : List Input) : s.differsInBuffers (s.setInputs inputs) := rfl

/-- The fields such a state has in common. -/
theorem differsInBuffers_fields {s t : State} (h : s.differsInBuffers t) :
    t.params = s.params ∧ t.cmd = s.cmd ∧ t.status = s.status ∧ t.first = s.first ∧ t.firstOut = s.firstOut ∧
    t.engine = s.engine := by
  unfold State.differsInBuffers at h
  rw [h]
  exact ⟨rfl, rfl, rfl, rfl, rfl, rfl⟩

/-- One request of LOAD while IDLE stores its word in SRC and changes no register (R65, R89). -/
theorem request_wrSrc (s : State) (k : Nat) (v : Word) (latency : Nat) (he : s.engine = .idle) (hk : 4 * k < 0x100000) :
    (s.request (wrRequest (.src (4 * k)) v) latency).mem = (s.writeWord srcBase k v).mem ∧
    (s.request (wrRequest (.src (4 * k)) v) latency).inputs = s.inputs ∧
    s.differsInBuffers (s.request (wrRequest (.src (4 * k)) v) latency) := by
  have hoff : (wrRequest (.src (4 * k)) v).offset.toNat = 0x100000 + 4 * k :=
    (BitVec.toNat_ofNat _ _).trans (Nat.mod_eq_of_lt (show 0x100000 + 4 * k < 2 ^ 23 by omega))
  have hwrite : s.memWrite (0x100000 + 4 * k) v latency = s.writeWord srcBase k v := by
    rw [memWrite_byteWindow s _ srcBase v latency he (Or.inl rfl) (Nat.le_add_right _ _) (Nat.add_lt_add_left hk _),
      Nat.add_sub_cancel_left, Nat.mul_div_cancel_left k (by decide)]
  obtain ⟨m, hm, -⟩ := writeWord_bufferWrite s srcBase k v (Or.inl rfl)
  rw [request_write s _ v latency rfl rfl (by omega), hoff, hwrite, hm]
  exact ⟨rfl, rfl, rfl⟩

/-- In `t`, SRC holds `bytes` from word `k` on, each written since reset, and below word `k` what it held in `s`. -/
def State.srcLoaded (s : State) (k : Nat) (bytes : List Byte) (t : State) : Prop :=
  (∀ i, i < 4 * k → t.mem.read? (srcBase + i) = s.mem.read? (srcBase + i)) ∧
  ∀ i, i < bytes.length → t.mem.read? (srcBase + (4 * k + i)) = some (bytes.getD i 0#8)

/-- The first word of a LOAD stores its first four bytes, and the rest of the LOAD leaves them. -/
theorem srcLoaded_of_first {s u t : State} {k : Nat} {bytes : List Byte}
    (hu : u.mem = (s.writeWord srcBase k (firstWord bytes)).mem) (hfit : bytes.length ≤ s.nmax - 4 * k)
    (ht : u.srcLoaded (k + 1) (bytes.drop 4) t) :
    s.srcLoaded k bytes t := by
  obtain ⟨hbelow, hrest⟩ := ht
  refine ⟨fun i hi => ?_, fun i hi => ?_⟩
  · rw [hbelow i (by omega), hu, read?_writeWord_other _ _ _ _ _ (by omega)]
  · by_cases h4 : i < 4
    · rw [hbelow _ (by omega), hu, read?_writeWord_lane _ _ _ _ i h4 (by omega), laneOf_firstWord _ i h4]
    · have h := hrest (i - 4) (by rw [List.length_drop]; omega)
      rw [show 4 * (k + 1) + (i - 4) = 4 * k + i by omega] at h
      rw [h, List.getD_eq_getElem?_getD, List.getElem?_drop, show 4 + (i - 4) = i by omega,
        List.getD_eq_getElem?_getD]

/-- A run of the slots of a LOAD from word `k` on (R89), whatever cycles pass between its requests, by induction on the
bytes left: a word at a time. The bound on their number is a truncated difference because the last word may end beyond
NMAX, when no byte is left. -/
theorem runSteps_load (latency k : Nat) (bytes : List Byte) (cycles : List Nat) (tail : List Input) (s : State)
    (he : s.engine = .idle) (hcap : s.nmax ≤ 0x100000) (hfit : bytes.length ≤ s.nmax - 4 * k)
    (hin : s.inputs = slots latency (loadFrom k bytes) cycles ++ tail) :
    ∃ t, runSteps (slots latency (loadFrom k bytes) cycles).length s = .next t ∧ t.inputs = tail ∧
      s.differsInBuffers t ∧ s.srcLoaded k bytes t := by
  by_cases hnil : bytes = []
  · subst hnil
    exact ⟨s, rfl, hin, rfl, fun _ _ => rfl, nofun⟩
  · have hpos := List.length_pos_iff.2 hnil
    rw [loadFrom_of_ne_nil k bytes hnil] at hin ⊢
    obtain ⟨hmem, hinputs, hsu⟩ := request_wrSrc (s.setInputs (slots latency (loadFrom (k + 1) (bytes.drop 4))
      cycles.tail ++ tail)) k (firstWord bytes) latency he (by omega)
    generalize hu : State.request _ _ latency = u at hmem hinputs hsu
    replace hsu := differsInBuffers_trans (differsInBuffers_setInputs s _) hsu
    obtain ⟨hparams, -, -, -, -, hengine⟩ := differsInBuffers_fields hsu
    have hnmax : u.nmax = s.nmax := congrArg Params.nmax hparams
    obtain ⟨t, ht, htail, hut, hload⟩ := runSteps_load latency (k + 1) (bytes.drop 4) cycles.tail tail u
      (hengine.trans he) (hnmax.trans_le hcap) (by rw [hnmax, List.length_drop]; omega) hinputs
    have hload := srcLoaded_of_first hmem hfit hload
    exact ⟨t, runSteps_slots_cons latency _ _ cycles tail s u t he hin hu ht, htail, differsInBuffers_trans hsu hut,
      hload⟩
termination_by bytes.length
decreasing_by rw [List.length_drop]; omega

/-- SRC loaded from its start, read as the operand of a command (R84). -/
theorem operand_of_srcLoaded (s u t : State) (bytes : List Byte) (h : s.srcLoaded 0 bytes u) (hmem : t.mem = u.mem)
    (hlen : t.n = bytes.length) : t.operand = bytes := by
  refine List.ext_getElem ((length_operand t).trans hlen) fun i _ hi => ?_
  have hread := h.2 i hi
  rw [Nat.mul_zero, Nat.zero_add, ← hmem, List.getD_eq_getElem _ _ hi] at hread
  simp only [State.operand, List.getElem_map, List.getElem_range, State.srcByte, State.byteAt, hread, Option.getD_some]

/-- A clean-entry state clause by clause (R235). -/
theorem cleanEntry_of (s : State) (he : s.engine = .idle) (hst : statusWord false s.status = 0#32) (hn : s.n ≤ s.nmax)
    (hsrc : ∀ i, i < s.n → (s.mem.read? (srcBase + i)).isSome = true) : s.cleanEntry = true := by
  simp only [State.cleanEntry, busy_of_engine_idle s he, hst, hn, Bool.not_false, decide_true, Bool.and_self,
    Bool.true_and, List.all_eq_true, List.mem_range]
  exact hsrc

/-- Settles O48: it holds; the LOAD writes every byte of the operand, and the LEN write says how many there are. -/
theorem loadMakesTheOperand : Obligations.LoadMakesTheOperand := by
  unfold Obligations.LoadMakesTheOperand
  intro s bytes latency cycles cycles' he hlegal hfit hin
  obtain ⟨-, hcap, -⟩ := (legal_iff s.params).1 hlegal
  obtain ⟨u, hu, huin, hsu, hload⟩ := runSteps_load latency 0 bytes cycles _ s he hcap hfit hin
  obtain ⟨hparams, hcmd, hstatus, hfirst, hfirstOut, hengine⟩ := differsInBuffers_fields hsu
  have huIdle : u.engine = .idle := hengine.trans he
  have hlen : (BitVec.ofNat 32 bytes.length).toNat = bytes.length :=
    (BitVec.toNat_ofNat _ _).trans (Nat.mod_eq_of_lt (by omega))
  have hwrite := request_writeReg (u.setInputs []) .len (BitVec.ofNat 32 bytes.length) latency (Or.inl huIdle)
  have hrun := runSteps_slots_cons latency _ [] cycles' [] u _ _ huIdle (huin.trans (List.append_nil _).symm) hwrite rfl
  rw [hin, List.length_append]
  refine ⟨_, (runSteps_add _ _ s u hu).trans hrun, rfl, huIdle, operand_of_srcLoaded s u _ bytes hload rfl hlen, hstatus,
    hfirst, hfirstOut, hcmd, fun hst => cleanEntry_of _ huIdle ?_ ?_ fun i hi => ?_⟩
  · exact hstatus ▸ hst
  · exact hlen.trans_le (hfit.trans_eq (congrArg Params.nmax hparams).symm)
  · have hread := hload.2 i (hlen ▸ hi)
    rw [Nat.mul_zero, Nat.zero_add] at hread
    exact Option.isSome_of_eq_some hread

end Sys2Proof.Machine
end

section
/-! SUPPORT. Command words (30_encoding.md): a word and its fields are inverse (R80), the decoder's answer by the checks
the fields pass (R85, R86), and the one word of each instruction (R88). -/

namespace Sys2Proof

/-! ### Fields and word (R80) -/

theorem fieldsOf_wordOf (f : CmdFields) : fieldsOf (wordOf f) = f := by
  obtain ⟨op, rsv0, cut, rsv1⟩ := f
  simp (disch := decide) only [fieldsOf, wordOf, BitVec.extractLsb'_append_eq_of_le,
    BitVec.extractLsb'_append_eq_of_add_le, BitVec.extractLsb'_eq_self, Nat.reduceSub]

theorem wordOf_fieldsOf (w : Word) : wordOf (fieldsOf w) = w := by
  calc wordOf (fieldsOf w)
      = w.extractLsb' 9 23 ++ w.extractLsb' 8 1 ++ w.extractLsb' 4 4 ++ w.extractLsb' 0 4 := rfl
    _ = w.extractLsb' 8 24 ++ w.extractLsb' 4 4 ++ w.extractLsb' 0 4 := by
      rw [BitVec.extractLsb'_append_extractLsb'_eq_extractLsb' (show 9 = 8 + 1 from rfl)]
    _ = w.extractLsb' 4 28 ++ w.extractLsb' 0 4 := by
      rw [BitVec.extractLsb'_append_extractLsb'_eq_extractLsb' (show 8 = 4 + 4 from rfl)]
    _ = w.extractLsb' 0 32 := BitVec.extractLsb'_append_extractLsb'_eq_extractLsb' rfl
    _ = w := BitVec.extractLsb'_eq_self

/-- Settles O3: it holds; the four fields lie side by side and fill the word. -/
theorem commandFieldsAndWordAgree : Obligations.CommandFieldsAndWordAgree := by
  unfold Obligations.CommandFieldsAndWordAgree
  exact ⟨fieldsOf_wordOf, wordOf_fieldsOf⟩

/-! ### The checks on the fields (R81 to R83) -/

theorem wellFormed_iff (f : CmdFields) :
    f.wellFormed = true ↔ f.opDefined = true ∧ f.reservedZero = true ∧ f.cutLegal = true := by
  simp only [CmdFields.wellFormed, Bool.and_eq_true, and_assoc]

theorem reservedZero_iff (f : CmdFields) : f.reservedZero = true ↔ f.rsv0 = 0#4 ∧ f.rsv1 = 0#23 := by
  simp only [CmdFields.reservedZero, Bool.and_eq_true, decide_eq_true_eq]

theorem fieldsOf_cut (w : Word) : ((fieldsOf w).cut == 1#1) = w.getLsbD 8 := (BitVec.getLsbD_eq_extractLsb' w 8).symm

theorem cutLegal_fieldsOf (w : Word) :
    (fieldsOf w).cutLegal = true ↔ (w.getLsbD 8 = true → w.extractLsb' 0 4 = 1#4 ∨ w.extractLsb' 0 4 = 2#4) := by
  have bit : ∀ cut : BitVec 1, cut = 0#1 ↔ ¬(cut == 1#1) = true := by decide
  simp only [CmdFields.cutLegal, Bool.or_eq_true, decide_eq_true_eq, bit, fieldsOf_cut, or_assoc, imp_iff_not_or]
  rfl

theorem opOf_eq_some_iff (v : BitVec 4) (op : Op) : opOf v = some op ↔ v = op.code := by
  revert v
  cases op <;> decide

theorem opDefined_iff (f : CmdFields) : f.opDefined = true ↔ ∃ op, opOf f.op = some op := by
  have values : ∀ v : BitVec 4, decide (v.toNat < 6) = (opOf v).isSome := by decide
  rw [← Option.isSome_iff_exists, ← values, CmdFields.opDefined]

theorem op_cut_of_instrOf (op : Op) (cut : Bool) (i : Instr) (h : instrOf op cut = some i) :
    i.op = op ∧ i.cut = cut := by
  unfold instrOf at h
  split at h <;> cases h <;> exact ⟨rfl, rfl⟩

/-- CUT is legal with an operation exactly where an instruction has the two (R82, R88). -/
theorem cutLegal_iff_instrOf (f : CmdFields) (op : Op) (h : opOf f.op = some op) :
    f.cutLegal = true ↔ ∃ i, instrOf op (f.cut == 1#1) = some i := by
  have values : ∀ cut : BitVec 1, (decide (cut = 0#1) || decide (op.code = 1#4) || decide (op.code = 2#4)) =
      (instrOf op (cut == 1#1)).isSome := by cases op <;> decide
  rw [← Option.isSome_iff_exists, ← values, CmdFields.cutLegal, (opOf_eq_some_iff _ _).1 h]

/-! ### The decoder's answer (R85) -/

/-- The first check of R85. -/
theorem decode_of_not_opDefined (w : Word) (h : ¬(fieldsOf w).opDefined = true) : decode w = .error .illegalOp := by
  rw [opDefined_iff, ← Option.isSome_iff_exists, Option.not_isSome_iff_eq_none] at h
  rw [decode, h]

/-- The second check of R85, of the reserved fields and of CUT. -/
theorem decode_of_not_reservedZero_cutLegal (w : Word) (ho : (fieldsOf w).opDefined = true)
    (h : ¬((fieldsOf w).reservedZero = true ∧ (fieldsOf w).cutLegal = true)) : decode w = .error .rsvdField := by
  obtain ⟨op, hop⟩ := (opDefined_iff _).1 ho
  rw [cutLegal_iff_instrOf _ op hop, ← Option.isSome_iff_exists] at h
  rw [decode, hop]
  by_cases hr : (fieldsOf w).reservedZero = true
  · have hi : instrOf op ((fieldsOf w).cut == 1#1) = none := Option.not_isSome_iff_eq_none.1 fun hi => h ⟨hr, hi⟩
    simp only [hr, hi, if_true]
  · exact if_neg hr

theorem wellFormed_of_decode (w : Word) (i : Instr) (h : decode w = .instr i) : (fieldsOf w).wellFormed = true := by
  rw [wellFormed_iff]
  by_cases ho : (fieldsOf w).opDefined = true
  · by_contra hrc
    rw [decode_of_not_reservedZero_cutLegal w ho fun hrc' => hrc ⟨ho, hrc'⟩] at h
    cases h
  · rw [decode_of_not_opDefined w ho] at h
    cases h

/-! ### The one word of an instruction (R88) -/

/-- The eight instructions' words (Laws/PerInstr.lean). -/
theorem encoding_statement (i : Instr) : Laws.Encoding.Statement i := by
  cases i
  exacts [Laws.Encoding.nop, Laws.Encoding.sort, Laws.Encoding.sortCut, Laws.Encoding.bwtf, Laws.Encoding.bwtfCut,
    Laws.Encoding.bwti, Laws.Encoding.mtfe, Laws.Encoding.mtfd]

theorem decode_encode (i : Instr) : decode (encode i) = .instr i := (encoding_statement i).1

/-- Well-formed fields are those of an instruction: OP gives its operation, CUT its option, and the rest is zero. -/
theorem exists_eq_encode_of_wellFormed (w : Word) (h : (fieldsOf w).wellFormed = true) : ∃ i, w = encode i := by
  obtain ⟨ho, hr, hc⟩ := (wellFormed_iff _).1 h
  obtain ⟨op, hop⟩ := (opDefined_iff _).1 ho
  obtain ⟨i, hi⟩ := (cutLegal_iff_instrOf _ op hop).1 hc
  obtain ⟨rfl, hicut⟩ := op_cut_of_instrOf op _ i hi
  obtain ⟨hrsv0, hrsv1⟩ := (reservedZero_iff _).1 hr
  have bit : ∀ cut : BitVec 1, cut = if cut == 1#1 then 1#1 else 0#1 := by decide
  refine ⟨i, ?_⟩
  calc w = (fieldsOf w).rsv1 ++ (fieldsOf w).cut ++ (fieldsOf w).rsv0 ++ (fieldsOf w).op := (wordOf_fieldsOf w).symm
    _ = 0#23 ++ (if i.cut then 1#1 else 0#1) ++ 0#4 ++ i.op.code := by
      rw [(opOf_eq_some_iff _ _).1 hop, hrsv0, bit (fieldsOf w).cut, ← hicut, hrsv1]
    _ = encode i := rfl

/-- Only its own word decodes to an instruction. -/
theorem decode_eq_instr_iff (w : Word) (i : Instr) : decode w = .instr i ↔ w = encode i := by
  constructor
  · intro h
    obtain ⟨j, rfl⟩ := exists_eq_encode_of_wellFormed w (wellFormed_of_decode w i h)
    cases (decode_encode j).symm.trans h
    rfl
  · rintro rfl
    exact decode_encode i

/-- Settles O2: it holds; a word that decodes has well-formed fields, and such a word is one that an instruction encodes
to. -/
theorem eachInstructionHasOneWord : Obligations.EachInstructionHasOneWord := by
  unfold Obligations.EachInstructionHasOneWord
  exact ⟨decode_eq_instr_iff, fun i _ => decode_encode i⟩

theorem exists_decode_iff_wellFormed (w : Word) : (∃ i, decode w = .instr i) ↔ (fieldsOf w).wellFormed = true := by
  constructor
  · rintro ⟨i, h⟩
    exact wellFormed_of_decode w i h
  · intro h
    obtain ⟨i, rfl⟩ := exists_eq_encode_of_wellFormed w h
    exact ⟨i, decode_encode i⟩

/-- Settles O4: it holds; well-formed fields are those of an instruction, and each failed check is an error. -/
theorem decodesIffFieldsWellFormed : Obligations.DecodesIffFieldsWellFormed := by
  unfold Obligations.DecodesIffFieldsWellFormed
  exact exists_decode_iff_wellFormed

/-- What the word of an instruction holds in OP and CUT (R81, R82). -/
theorem op_cut_encode (i : Instr) : i.op.code = (encode i).extractLsb' 0 4 ∧ i.cut = (encode i).getLsbD 8 := by
  have hfields : fieldsOf (encode i) =
      { op := i.op.code, rsv0 := 0#4, cut := if i.cut then 1#1 else 0#1, rsv1 := 0#23 } := fieldsOf_wordOf _
  have bit : ∀ b : Bool, b = ((if b then 1#1 else 0#1) == 1#1) := by decide
  refine ⟨congrArg CmdFields.op hfields.symm, ?_⟩
  rw [← fieldsOf_cut, hfields]
  exact bit i.cut

/-- Settles O1: it holds; the clauses are the checks of R85 on the fields, and a word that passes them all is that of an
instruction. -/
theorem decodeChecksInOrder : Obligations.DecodeChecksInOrder := by
  unfold Obligations.DecodeChecksInOrder
  intro w
  have hop : (fieldsOf w).opDefined = true ↔ (w.extractLsb' 0 4).toNat < 6 := decide_eq_true_iff
  have hrsv : (fieldsOf w).reservedZero = true ↔ w.extractLsb' 4 4 = 0#4 ∧ w.extractLsb' 9 23 = 0#23 :=
    reservedZero_iff _
  refine ⟨fun h => ?_, fun ho h => ?_, fun ho _ _ hcut h1 h2 => ?_, fun ho h0 h9 hcut => ?_⟩
  · exact decode_of_not_opDefined w (hop.not.2 (by omega))
  · exact decode_of_not_reservedZero_cutLegal w (hop.2 ho) fun hrc => not_and_or.2 h (hrsv.1 hrc.1)
  · exact decode_of_not_reservedZero_cutLegal w (hop.2 ho) fun hrc => ((cutLegal_fieldsOf w).1 hrc.2 hcut).elim h1 h2
  · obtain ⟨i, rfl⟩ := exists_eq_encode_of_wellFormed w
      ((wellFormed_iff _).2 ⟨hop.2 ho, hrsv.2 ⟨h0, h9⟩, (cutLegal_fieldsOf w).2 hcut⟩)
    exact ⟨i, decode_encode i, op_cut_encode i⟩

/-- Settles O5: it holds; the eight words are the instructions' own, and each of the other three fails the check its title
names. -/
theorem tableWordsDecode : Obligations.TableWordsDecode := by
  unfold Obligations.TableWordsDecode
  exact ⟨decode_encode .nop, decode_encode .sort, decode_encode .sortCut, decode_encode .bwtf, decode_encode .bwtfCut,
    decode_encode .bwti, decode_encode .mtfe, decode_encode .mtfd, decode_of_not_opDefined _ (by decide),
    decode_of_not_reservedZero_cutLegal _ (by decide) (by decide),
    decode_of_not_reservedZero_cutLegal _ (by decide) (by decide)⟩

end Sys2Proof
end

section
/-! SUPPORT. The step that runs a placed word (notes/assumptions/6.md): the completion step of the instruction it decodes
to, or the CMD write that fails (R102, R104). -/

namespace Sys2Proof.Machine

theorem validate_of_decode_error (w : Word) (s : State) (e : CmdError) (h : decode w = .error e) :
    validate w s = .error e := by
  rw [validate, h]

/-- A 32-bit word is placed as itself (R87). -/
theorem withFetchWord_toNat (s : State) (w : Word) : s.withFetchWord 32 w.toNat = s.placeWord w := by
  have hmod : w.toNat % 2 ^ 32 = w.toNat := Nat.mod_eq_of_lt w.isLt
  have hword : tableWord 32 w.toNat = some w := by
    rw [tableWord, hmod, if_pos w.isLt, BitVec.ofNat_toNat, BitVec.setWidth_eq]
  rw [State.withFetchWord, hword]

theorem placeWord_of_instr (s : State) (w : Word) (i : Instr) (h : decode w = .instr i) :
    s.placeWord w = s.withPending w i := by
  rw [State.placeWord, h]

theorem placeWord_of_error (s : State) (w : Word) (e : CmdError) (h : decode w = .error e) :
    s.placeWord w = s.withCommandWrite w := by
  rw [State.placeWord, h]

/-- The cycle placed with a pending command is its completion step. -/
theorem step_withPending (s : State) (w : Word) (i : Instr) :
    step (s.withPending w i) = exec i ((s.takeCommand w).enterBusy i 1) :=
  (step_cycle (s.withPending w i) s.inputs rfl).trans (passCycle_due _ i 1 rfl le_rfl)

/-- The CMD write placed for a word that does not decode fails at its acceptance (R102). -/
theorem step_withCommandWrite_of_error (s : State) (w : Word) (e : CmdError) (h : decode w = .error e) :
    step (s.withCommandWrite w) = .next (((((s.setEngine .idle).takeCommand w).failComplete e).setResponse
      (some { rdata := none, err := false })).setDraws (s.draws + 1)) := by
  rw [step_cmdWrite_idle (s.withCommandWrite w) w 0 s.inputs rfl rfl,
    accept_error _ w 0 e (validate_of_decode_error w _ e h)]
  rfl

/-- Settles O11: it holds; the word that decodes is pending with a cycle to come, any other is the next CMD write. -/
theorem placedWordRunsNext : Obligations.PlacedWordRunsNext := by
  unfold Obligations.PlacedWordRunsNext
  intro s w
  rw [withFetchWord_toNat]
  refine ⟨fun i hi => ?_, fun e he => ?_⟩
  · rw [placeWord_of_instr s w i hi, step_withPending]
  · rw [placeWord_of_error s w e he, step_withCommandWrite_of_error s w e he]
    exact ⟨_, rfl, rfl, rfl, status_accepted_failed s.status e⟩

end Sys2Proof.Machine
end

section
/-! SUPPORT. The rest of the command lifecycle: a word or operands that fail write nothing (R101, R102), NOP (R106), the
STATUS write (R108), and that a BUSY phase ends under every schedule of cycles and requests (R104, R112). -/

namespace Sys2Proof.Machine

/-! ### Commands that fail, and NOP -/

/-- Settles O8: it holds; a word that fails is the first end of an acceptance. -/
theorem failedCommandWritesNothing : Obligations.FailedCommandWritesNothing := by
  unfold Obligations.FailedCommandWritesNothing
  intro s w latency rest e he hin hv
  have hv' : validate w (s.setInputs rest) = .error e := (validate_congr w _ s rfl rfl rfl).trans hv
  refine ⟨_, step_cmdWrite_idle s w latency rest he hin, ?_⟩
  rw [accept_error _ w latency e hv']
  exact ⟨rfl, rfl, status_accepted_failed s.status e, fun _ => rfl, rfl, rfl, rfl, rfl, rfl, rfl, rfl, rfl, rfl⟩

theorem lenError_some (s : State) (h : s.nmax < s.n) : s.lenError = some .lenRange := if_pos h

/-- A length above NMAX fails every operation but NOP, before FIRST is checked (R101, R202). -/
theorem operandError_of_len_gt (i : Instr) (s : State) (h : s.nmax < s.n) (hi : i ≠ .nop) :
    operandError i s = some .lenRange := by
  have hlen := lenError_some s h
  cases i with
  | nop => exact absurd rfl hi
  | bwti => rw [operandError, Instr.op, hlen, Option.some_or]
  | sort | sortCut | bwtf | bwtfCut | mtfe | mtfd => exact hlen

theorem operandError_bwti_first (s : State) (h1 : 1 ≤ s.n) (hl : s.n ≤ s.nmax) (hf : s.n ≤ s.firstIndex) :
    operandError .bwti s = some .firstRange := by
  rw [operandError, Instr.op, lenError_none s hl, Option.none_or, State.firstError, if_pos ⟨h1, hf⟩]

theorem exec_fails (i : Instr) (s : State) (e : CmdError) (h : operandError i s = some e) :
    exec i s = .next (s.failComplete e) := by
  rw [exec_eq_runCommand, runCommand_fails i s _ e h]

/-- Settles O22: it holds; each of the two ranges gives its error, and a failed completion writes no output. -/
theorem operandsOutOfRangeFail : Obligations.OperandsOutOfRangeFail := by
  unfold Obligations.OperandsOutOfRangeFail
  intro s i code h
  obtain ⟨e, he, rfl⟩ : ∃ e : CmdError, operandError i s = some e ∧ e.code = code := by
    rcases h with ⟨hl, hi, rfl⟩ | ⟨rfl, h1, hl, hf, rfl⟩
    · exact ⟨_, operandError_of_len_gt i s hl hi, rfl⟩
    · exact ⟨_, operandError_bwti_first s h1 hl hf, rfl⟩
  exact ⟨_, exec_fails i s e he, rfl, rfl, kept_failComplete s e, rfl, fun _ => rfl⟩

/-- Settles O15: it holds; NOP checks no operand, and its outputs are the state as it was. -/
theorem nopCompletes : Obligations.NopCompletes := by
  unfold Obligations.NopCompletes
  intro s
  exact ⟨_, exec_ok .nop s rfl, completedFrom_complete_outputsOf .nop s, kept_complete_outputsOf .nop s, rfl,
    fun _ => rfl⟩

/-! ### The STATUS write -/

/-- A step on a write of the wrong size: a bus error that changes nothing (R62, R206). -/
theorem step_write_wrongSize (s : State) (r : Request) (v : Word) (latency : Nat) (rest : List Input)
    (hin : s.inputs = .request r latency :: rest) (hk : r.kind = .write v) (hs : r.size ≠ .four) :
    step s = .next (((s.setInputs rest).setResponse (some { rdata := none, err := true })).setDraws (s.draws + 1)) := by
  have ha : r.isAligned = false := by rw [Request.isAligned, decide_eq_false hs, Bool.false_and]
  rw [step_request s r latency rest hin, State.request, State.applyRequest, State.respond, hk, ha]
  rfl

/-- What bits 1 and 3 of the word clear (R108). -/
theorem hostWrite_eq (st : Status) (v : Word) :
    st.hostWrite v =
      { done := if v.getLsbD 1 = true then false else st.done, err := st.err,
        ovr := if v.getLsbD 3 = true then false else st.ovr, errcode := st.errcode } := by
  have clear : ∀ flag bit : Bool, (flag && !bit) = if bit = true then false else flag := by decide
  simp only [Status.hostWrite, clear]

/-- Settles O46: it holds; STATUS is not protected, so the write takes effect in either phase. -/
theorem statusWriteClearsDoneAndOvr : Obligations.StatusWriteClearsDoneAndOvr := by
  unfold Obligations.StatusWriteClearsDoneAndOvr
  intro s r v latency rest hin hk hoff
  refine ⟨fun hs => ?_, fun hs => step_write_wrongSize s r v latency rest hin hk hs⟩
  have hoff' : r.offset.toNat = Reg.offset .status := by rw [hoff]; rfl
  have hwrite : (s.setInputs rest).memWrite (Reg.offset .status) v latency =
      (s.setInputs rest).setStatus (s.status.hostWrite v) := memWrite_reg _ .status v latency (Or.inr rfl)
  rw [step_write s r v latency rest hin hk hs (by rw [hoff']; rfl), hoff', hwrite, hostWrite_eq]
  rfl

/-! ### The end of a BUSY phase -/

/-- Every completion step answers an IDLE block with DONE set, failed or not (R102, R104). -/
theorem exists_exec (i : Instr) (s : State) :
    ∃ t, exec i s = .next t ∧ t.engine = .idle ∧ t.status.done = true ∧ s.kept t := by
  rcases exec_cases i s with ⟨e, -, h⟩ | ⟨-, h⟩
  · exact ⟨_, h, rfl, rfl, kept_failComplete s e⟩
  · exact ⟨_, h, rfl, rfl, kept_complete_outputsOf i s⟩

/-- With nothing scheduled and no time left, one step is the completion step. -/
theorem runSteps_due (i : Instr) (k : Nat) (s : State) (hE : s.engine = .busy i k) (hk : k ≤ 1) (hin : s.inputs = []) :
    runSteps 1 s = exec i s := by
  obtain ⟨t, ht, -⟩ := exists_exec i s
  rw [ht]
  exact runSteps_one s t (((step_nothing s hin).trans (passCycle_due s i k hE hk)).trans ht)

/-- With nothing scheduled the time runs out, and the pending command runs on the state as it stood (R104). -/
theorem runSteps_countdown (i : Instr) (k : Nat) (s : State) (hE : s.engine = .busy i (k + 1)) (hin : s.inputs = []) :
    runSteps (k + 1) s = exec i (s.enterBusy i 1) := by
  induction k generalizing s with
  | zero =>
    have hs : s.enterBusy i 1 = s := by rw [State.enterBusy, State.setEngine, ← hE]
    rw [hs]
    exact runSteps_due i 1 s hE le_rfl hin
  | succ k ih =>
    have hstep := (step_nothing s hin).trans (passCycle_waits s i (k + 2) hE (by omega))
    exact (runSteps_succ (k + 1) s _ hstep).trans (ih (s.enterBusy i (k + 1)) rfl hin)

/-- The block ends its BUSY phase within `n` steps, with DONE set and CMD, LEN and FIRST as they are. -/
def State.endsWithin (s : State) (n : Nat) : Prop :=
  ∃ m t, m ≤ n ∧ runSteps m s = .next t ∧ t.engine = .idle ∧ t.status.done = true ∧
    t.cmd = s.cmd ∧ t.len = s.len ∧ t.first = s.first

theorem endsWithin_of_step (s u : State) (n n' : Nat) (hn : n + 1 ≤ n') (hstep : step s = .next u)
    (hcmd : u.cmd = s.cmd) (hlen : u.len = s.len) (hfirst : u.first = s.first) (h : u.endsWithin n) :
    s.endsWithin n' := by
  obtain ⟨m, t, hm, hrun, hidle, hdone, hc, hl, hf⟩ := h
  exact ⟨m + 1, t, by omega, (runSteps_succ m s u hstep).trans hrun, hidle, hdone, hc.trans hcmd, hl.trans hlen,
    hf.trans hfirst⟩

/-- A run that comes to the completion step of a state with the same registers. -/
theorem endsWithin_of_exec (s u : State) (i : Instr) (m n : Nat) (hm : m ≤ n) (hrun : runSteps m s = exec i u)
    (hcmd : u.cmd = s.cmd) (hlen : u.len = s.len) (hfirst : u.first = s.first) : s.endsWithin n := by
  obtain ⟨t, ht, hidle, hdone, -, hc, hl, hf, -⟩ := exists_exec i u
  exact ⟨m, t, hm, hrun.trans ht, hidle, hdone, hc.trans hcmd, hl.trans hlen, hf.trans hfirst⟩

/-- A request while BUSY leaves the engine, CMD, LEN, FIRST and the schedule (R34, R240). -/
theorem request_busy_frame (s : State) (r : Request) (latency : Nat) (hb : s.busy = true) :
    (s.request r latency).engine = s.engine ∧ (s.request r latency).cmd = s.cmd ∧
    (s.request r latency).len = s.len ∧ (s.request r latency).first = s.first ∧
    (s.request r latency).inputs = s.inputs := by
  have happly : (s.applyRequest r latency).engine = s.engine ∧ (s.applyRequest r latency).cmd = s.cmd ∧
      (s.applyRequest r latency).len = s.len ∧ (s.applyRequest r latency).first = s.first ∧
      (s.applyRequest r latency).inputs = s.inputs := by
    rcases applyRequest_cases s r latency with e | ⟨v, -, -, ha, e⟩ <;> rw [e]
    · exact ⟨rfl, rfl, rfl, rfl, rfl⟩
    · obtain ⟨hlen, hfirst, hcmd, -, heng⟩ := memWrite_busy_frame s _ v latency ha hb
      obtain ⟨-, -, hin, -⟩ := memWrite_frame s _ v latency ha
      exact ⟨heng, hcmd, hlen, hfirst, hin⟩
  exact happly

/-- The schedule taken slot by slot: a cycle takes one from the time left or is the last, and a request takes none. -/
theorem endsWithin_of_busy (i : Instr) (inputs : List Input) (s : State) (k : Nat) (hE : s.engine = .busy i k)
    (hin : s.inputs = inputs) (hsched : ∀ x ∈ inputs, x = .cycle ∨ ∃ r latency, x = .request r latency) :
    s.endsWithin (inputs.length + (max k 1 - inputs.count .cycle)) := by
  induction inputs generalizing s k with
  | nil =>
    cases k with
    | zero => exact endsWithin_of_exec s s i 1 _ (by simp) (runSteps_due i 0 s hE (by decide) hin) rfl rfl rfl
    | succ k => exact endsWithin_of_exec s _ i (k + 1) _ (by simp) (runSteps_countdown i k s hE hin) rfl rfl rfl
  | cons x rest ih =>
    have hrest := fun y hy => hsched y (List.mem_cons_of_mem x hy)
    rcases hsched x List.mem_cons_self with rfl | ⟨r, latency, rfl⟩
    · rw [List.length_cons, List.count_cons_self]
      have hstep := step_cycle s rest hin
      rcases Nat.lt_or_ge 1 k with hk | hk
      · rw [passCycle_waits (s.setInputs rest) i k hE hk] at hstep
        exact endsWithin_of_step s _ _ _ (by omega) hstep rfl rfl rfl (ih _ (k - 1) rfl rfl hrest)
      · obtain ⟨t, ht, -⟩ := exists_exec i (s.setInputs rest)
        rw [passCycle_due (s.setInputs rest) i k hE hk, ht] at hstep
        exact endsWithin_of_exec s (s.setInputs rest) i 1 _ (by omega) ((runSteps_one s t hstep).trans ht.symm) rfl rfl
          rfl
    · have hne : Input.request r latency ≠ .cycle := nofun
      rw [List.length_cons, List.count_cons_of_ne hne]
      obtain ⟨heng, hcmd, hlen, hfirst, hinputs⟩ :=
        request_busy_frame (s.setInputs rest) r latency (busy_of_engine_busy s i k hE)
      exact endsWithin_of_step s _ _ _ (by omega) (step_request s r latency rest hin) hcmd hlen hfirst
        (ih _ k (heng.trans hE) hinputs hrest)

/-- Settles O13: it holds, by induction on the schedule. -/
theorem busyPhaseEnds : Obligations.BusyPhaseEnds := by
  unfold Obligations.BusyPhaseEnds
  exact fun s i k hE hsched => endsWithin_of_busy i s.inputs s k hE rfl hsched

/-- Settles O14: it holds; the CMD write is an acceptance, and the time it sets runs out with nothing scheduled. -/
theorem acceptedCommandRunsToItsEnd : Obligations.AcceptedCommandRunsToItsEnd := by
  unfold Obligations.AcceptedCommandRunsToItsEnd
  intro s w latency i he hin hv
  obtain ⟨a, hstep, hE, hcmd, hstatus, hparams, hlen, hfirst, -, -, hmem, -, hinputs, -⟩ :=
    cmdWriteWhileIdleIsAccepted s w latency [] i he hin hv
  obtain ⟨-, hop⟩ := (validate_instr w s i).1 hv
  have hexec := exec_ok i (a.enterBusy i 1) ((operandError_congr i _ s hlen hfirst hparams).trans hop)
  obtain ⟨hidle, hdone⟩ := completedFrom_complete_outputsOf i (a.enterBusy i 1)
  have hrun := (runSteps_countdown i latency a hE hinputs).trans hexec
  refine ⟨a, _, hstep, hcmd, hlen, hfirst, hmem, hexec, (runSteps_succ _ s a hstep).trans hrun, hidle, ?_⟩
  rw [hdone, State.enterBusy, setEngine_status, hstatus]

end Sys2Proof.Machine
end

section
/-! SUPPORT. The sort puts the rotations in order: what a swap and a scan do to a range (R122), the three zones of a
partition, and that a sorted range is in order by the characters within its depth bound (R121, R124). -/

namespace Sys2Proof.Machine

/-! ### Reordering a range of the index array -/

theorem getD_swapEntries (l : List Nat) (i j k : Nat) (hi : i < l.length) (hj : j < l.length) :
    (swapEntries l i j).getD k 0 = if k = j then l.getD i 0 else if k = i then l.getD j 0 else l.getD k 0 := by
  simp only [swapEntries, List.getD_eq_getElem?_getD, List.getElem?_set, List.length_set, hi, hj, if_true]
  rcases eq_or_ne k j with rfl | hkj
  · rw [if_pos rfl, if_pos rfl, Option.getD_some]
  · rw [if_neg hkj.symm, if_neg hkj]
    rcases eq_or_ne k i with rfl | hki
    · rw [if_pos rfl, if_pos rfl, Option.getD_some]
    · rw [if_neg hki.symm, if_neg hki]

/-- `l'` has the entries of `l` outside `[lo, hiEnd)`, and inside that range only entries which `l` has there. -/
def reordersRange (lo hiEnd : Nat) (l l' : List Nat) : Prop :=
  (∀ k, k < lo ∨ hiEnd ≤ k → l'.getD k 0 = l.getD k 0) ∧
  ∀ k, lo ≤ k → k < hiEnd → ∃ j, lo ≤ j ∧ j < hiEnd ∧ l'.getD k 0 = l.getD j 0

theorem reordersRange_refl (lo hiEnd : Nat) (l : List Nat) : reordersRange lo hiEnd l l :=
  ⟨fun _ _ => rfl, fun k h1 h2 => ⟨k, h1, h2, rfl⟩⟩

theorem reordersRange_trans {lo hiEnd : Nat} {l l' l'' : List Nat} (h : reordersRange lo hiEnd l l')
    (h' : reordersRange lo hiEnd l' l'') : reordersRange lo hiEnd l l'' := by
  refine ⟨fun k hk => (h'.1 k hk).trans (h.1 k hk), fun k h1 h2 => ?_⟩
  obtain ⟨j, hj1, hj2, hj⟩ := h'.2 k h1 h2
  obtain ⟨i, hi1, hi2, hi⟩ := h.2 j hj1 hj2
  exact ⟨i, hi1, hi2, hj.trans hi⟩

/-- A reordering of a range is one of every larger range. -/
theorem reordersRange_mono {lo hiEnd lo' hiEnd' : Nat} {l l' : List Nat} (h : reordersRange lo hiEnd l l')
    (hlo : lo' ≤ lo) (hhi : hiEnd ≤ hiEnd') : reordersRange lo' hiEnd' l l' := by
  refine ⟨fun k hk => h.1 k (by omega), fun k h1 h2 => ?_⟩
  by_cases hk : lo ≤ k ∧ k < hiEnd
  · obtain ⟨j, hj1, hj2, hj⟩ := h.2 k hk.1 hk.2
    exact ⟨j, by omega, by omega, hj⟩
  · exact ⟨k, h1, h2, h.1 k (by omega)⟩

/-- What holds of every entry of `[a, b)` holds after a reordering inside it or apart from it. -/
theorem forall_of_reordersRange {lo hiEnd a b : Nat} {l l' : List Nat} (h : reordersRange lo hiEnd l l')
    (hab : a ≤ lo ∧ hiEnd ≤ b ∨ hiEnd ≤ a ∨ b ≤ lo) {P : Nat → Prop} (hP : ∀ k, a ≤ k → k < b → P (l.getD k 0))
    (k : Nat) (h1 : a ≤ k) (h2 : k < b) : P (l'.getD k 0) := by
  rcases hab with ⟨ha, hb⟩ | hab
  · obtain ⟨j, hj1, hj2, hj⟩ := (reordersRange_mono h ha hb).2 k h1 h2
    exact hj ▸ hP j hj1 hj2
  · exact (h.1 k (by omega)) ▸ hP k h1 h2

theorem reordersRange_swapEntries (lo hiEnd i j : Nat) (l : List Nat) (hl : hiEnd ≤ l.length) (hi1 : lo ≤ i)
    (hi2 : i < hiEnd) (hj1 : lo ≤ j) (hj2 : j < hiEnd) : reordersRange lo hiEnd l (swapEntries l i j) := by
  refine ⟨fun k hk => ?_, fun k h1 h2 => ?_⟩ <;>
    rw [getD_swapEntries l i j k (by omega) (by omega)]
  · rw [if_neg (by omega), if_neg (by omega)]
  · split_ifs
    · exact ⟨i, hi1, hi2, rfl⟩
    · exact ⟨j, hj1, hj2, rfl⟩
    · exact ⟨k, h1, h2, rfl⟩

/-! ### The zones of a partition -/

/-- A range cut into zones by the characters at depth `d`, as far as it has been scanned: below `v` in `[lo, lt)`,
`v` in `[lt, i)`, above `v` in `[gtEnd, hiEnd)`. -/
def zoned (s : List Byte) (d v lo lt i gtEnd hiEnd : Nat) (l : List Nat) : Prop :=
  (∀ k, lo ≤ k → k < lt → charAt s (l.getD k 0) d < v) ∧
  (∀ k, lt ≤ k → k < i → charAt s (l.getD k 0) d = v) ∧
  ∀ k, gtEnd ≤ k → k < hiEnd → v < charAt s (l.getD k 0) d

/-- A partition that reorders the range `[lo, hiEnd)` of `l` into its three zones, the middle one not empty (R122). -/
def Partition.cuts (p : Partition) (s : List Byte) (d v lo hiEnd : Nat) (l : List Nat) : Prop :=
  lo ≤ p.lt ∧ p.lt < p.gtEnd ∧ p.gtEnd ≤ hiEnd ∧ zoned s d v lo p.lt p.gtEnd p.gtEnd hiEnd p.index ∧
  reordersRange lo hiEnd l p.index

theorem cuts_of_reordersRange {p : Partition} {s : List Byte} {d v lo hiEnd : Nat} {l l' : List Nat}
    (h : reordersRange lo hiEnd l l') (hp : p.cuts s d v lo hiEnd l') : p.cuts s d v lo hiEnd l := by
  obtain ⟨h1, h2, h3, hz, hr⟩ := hp
  exact ⟨h1, h2, h3, hz, reordersRange_trans h hr⟩

/-- A character below `v` joins the first zone, in exchange for the first entry of the middle one. -/
theorem zoned_swap_lt {s : List Byte} {d v lo lt i gtEnd hiEnd : Nat} {l : List Nat} (hl : hiEnd ≤ l.length)
    (hlt : lt < i) (hi : i < gtEnd) (hgt : gtEnd ≤ hiEnd) (hz : zoned s d v lo lt i gtEnd hiEnd l)
    (hc : charAt s (l.getD i 0) d < v) : zoned s d v lo (lt + 1) (i + 1) gtEnd hiEnd (swapEntries l lt i) := by
  obtain ⟨hlow, hmid, hhigh⟩ := hz
  have hread := fun k => getD_swapEntries l lt i k (by omega) (by omega)
  refine ⟨fun k h1 h2 => ?_, fun k h1 h2 => ?_, fun k h1 h2 => ?_⟩ <;> rw [hread]
  · rw [if_neg (by omega)]
    split_ifs with hk
    · exact hc
    · exact hlow k h1 (by omega)
  · split_ifs with hk hk'
    · exact hmid lt le_rfl hlt
    · omega
    · exact hmid k (by omega) (by omega)
  · rw [if_neg (by omega), if_neg (by omega)]
    exact hhigh k h1 h2

/-- A character above `v` joins the last zone, in exchange for the last entry not scanned. -/
theorem zoned_swap_gt {s : List Byte} {d v lo lt i gtEnd hiEnd : Nat} {l : List Nat} (hl : hiEnd ≤ l.length)
    (hlt : lt < i) (hi : i ≤ gtEnd) (hgt : gtEnd < hiEnd) (hz : zoned s d v lo lt i (gtEnd + 1) hiEnd l)
    (hc : v < charAt s (l.getD i 0) d) : zoned s d v lo lt i gtEnd hiEnd (swapEntries l i gtEnd) := by
  obtain ⟨hlow, hmid, hhigh⟩ := hz
  have hread := fun k => getD_swapEntries l i gtEnd k (by omega) (by omega)
  refine ⟨fun k h1 h2 => ?_, fun k h1 h2 => ?_, fun k h1 h2 => ?_⟩ <;> rw [hread]
  · rw [if_neg (by omega), if_neg (by omega)]
    exact hlow k h1 h2
  · rw [if_neg (by omega), if_neg (by omega)]
    exact hmid k h1 h2
  · split_ifs with hk hk'
    · exact hc
    · omega
    · exact hhigh k (by omega) h2

/-- The character `v` joins the middle zone as it stands. -/
theorem zoned_eq {s : List Byte} {d v lo lt i gtEnd hiEnd : Nat} {l : List Nat}
    (hz : zoned s d v lo lt i gtEnd hiEnd l) (hc : charAt s (l.getD i 0) d = v) :
    zoned s d v lo lt (i + 1) gtEnd hiEnd l := by
  obtain ⟨hlow, hmid, hhigh⟩ := hz
  refine ⟨hlow, fun k h1 h2 => ?_, hhigh⟩
  rcases Nat.lt_succ_iff_lt_or_eq.1 h2 with hk | rfl
  · exact hmid k h1 hk
  · exact hc

/-- The loop of R122 ends in the three zones, since each turn moves one entry into its zone. -/
theorem scan_cuts (s : List Byte) (d v lo hiEnd left lt i : Nat) (l : List Nat) (hl : hiEnd ≤ l.length) (hlo : lo ≤ lt)
    (hlt : lt < i) (hi : i + left ≤ hiEnd) (hz : zoned s d v lo lt i (i + left) hiEnd l) :
    (scan s d v left lt i l).cuts s d v lo hiEnd l := by
  induction left generalizing lt i l with
  | zero => exact ⟨hlo, hlt, hi, hz, reordersRange_refl lo hiEnd l⟩
  | succ left ih =>
    have hshift : i + (left + 1) = i + 1 + left := by omega
    unfold scan
    split_ifs with h1 h2
    · have hz' := zoned_swap_lt hl hlt (by omega) hi hz h1
      rw [hshift] at hz'
      exact cuts_of_reordersRange (reordersRange_swapEntries lo hiEnd lt i l hl hlo (by omega) (by omega) (by omega))
        (ih (lt + 1) (i + 1) _ (by rwa [length_swapEntries]) (by omega) (by omega) (by omega) hz')
    · have hz' := zoned_swap_gt hl hlt (Nat.le_add_right i left) hi hz h2
      exact cuts_of_reordersRange
        (reordersRange_swapEntries lo hiEnd i (i + left) l hl (by omega) (by omega) (by omega) (by omega))
        (ih lt i _ (by rwa [length_swapEntries]) hlo hlt (by omega) hz')
    · have hz' := zoned_eq hz (by omega)
      rw [hshift] at hz'
      exact ih lt (i + 1) l hl hlo (by omega) (by omega) hz'

/-- A partition about the first entry's character cuts its range (R122). -/
theorem partitionAt_cuts (s : List Byte) (lo hiEnd d : Nat) (l : List Nat) (h : lo < hiEnd) (hl : hiEnd ≤ l.length) :
    (partitionAt s lo hiEnd d l).cuts s d (charAt s (l.getD lo 0) d) lo hiEnd l := by
  refine scan_cuts s d _ lo hiEnd _ lo (lo + 1) l hl le_rfl (Nat.lt_succ_self lo) (by omega) ⟨?_, ?_, ?_⟩
  · intro k h1 h2
    omega
  · intro k h1 h2
    rw [show k = lo by omega]
  · intro k h1 h2
    omega

/-! ### A sorted range -/

/-- The first `m` characters of the circular suffix from offset `j` on (R12, R120). -/
def rotPrefix (s : List Byte) (m j : Nat) : List Nat := (List.range m).map (charAt s j)

theorem rot_eq_rotPrefix (s : List Byte) (j : Nat) : rot s j = rotPrefix s s.length j := rfl

theorem length_rotPrefix (s : List Byte) (m j : Nat) : (rotPrefix s m j).length = m := by simp [rotPrefix]

theorem getElem_rotPrefix (s : List Byte) (m j e : Nat) (h : e < (rotPrefix s m j).length) :
    (rotPrefix s m j)[e] = charAt s j e := by simp [rotPrefix]

/-- Offsets `i` and `j` have the same first `d` characters. -/
def agreeBelow (s : List Byte) (d i j : Nat) : Prop := ∀ e, e < d → charAt s i e = charAt s j e

theorem rotPrefix_eq_of_agreeBelow {s : List Byte} {m i j : Nat} (h : agreeBelow s m i j) :
    rotPrefix s m i = rotPrefix s m j :=
  List.map_congr_left fun e he => h e (List.mem_range.1 he)

/-- Lexicographic order: the first character that differs decides (R124). -/
theorem rotPrefix_lt_iff (s : List Byte) (m i j : Nat) :
    rotPrefix s m i < rotPrefix s m j ↔ ∃ d, d < m ∧ agreeBelow s d i j ∧ charAt s i d < charAt s j d := by
  rw [List.lt_iff_exists]
  simp only [length_rotPrefix, getElem_rotPrefix, Nat.lt_irrefl, and_false, false_or]
  constructor
  · rintro ⟨d, hd, -, hagree, hlt⟩
    exact ⟨d, hd, hagree, hlt⟩
  · rintro ⟨d, hd, hagree, hlt⟩
    exact ⟨d, hd, hd, hagree, hlt⟩

/-- The entries of `[lo, hiEnd)` are in order by their first `m` characters. -/
def sortedRange (s : List Byte) (m lo hiEnd : Nat) (l : List Nat) : Prop :=
  ∀ p q, lo ≤ p → p < q → q < hiEnd → rotPrefix s m (l.getD p 0) ≤ rotPrefix s m (l.getD q 0)

/-- All entries of `[lo, hiEnd)` have the same first `d` characters. -/
def agreeRange (s : List Byte) (d lo hiEnd : Nat) (l : List Nat) : Prop :=
  ∀ p q, lo ≤ p → p < hiEnd → lo ≤ q → q < hiEnd → agreeBelow s d (l.getD p 0) (l.getD q 0)

/-- A reordering inside one zone keeps the zones. -/
theorem zoned_of_reordersRange {s : List Byte} {d v lo lt gtEnd hiEnd a b : Nat} {l l' : List Nat}
    (h : reordersRange a b l l') (hlt : lt ≤ gtEnd)
    (hab : lo ≤ a ∧ b ≤ lt ∨ lt ≤ a ∧ b ≤ gtEnd ∨ gtEnd ≤ a ∧ b ≤ hiEnd)
    (hz : zoned s d v lo lt gtEnd gtEnd hiEnd l) : zoned s d v lo lt gtEnd gtEnd hiEnd l' := by
  obtain ⟨hlow, hmid, hhigh⟩ := hz
  exact ⟨forall_of_reordersRange h (P := fun j => charAt s j d < v) (by omega) hlow,
    forall_of_reordersRange h (P := fun j => charAt s j d = v) (by omega) hmid,
    forall_of_reordersRange h (P := fun j => v < charAt s j d) (by omega) hhigh⟩

/-- A reordering inside the range or apart from it keeps the agreement. -/
theorem agreeRange_of_reordersRange {s : List Byte} {d lo hiEnd a b : Nat} {l l' : List Nat}
    (h : reordersRange a b l l') (hab : lo ≤ a ∧ b ≤ hiEnd ∨ b ≤ lo ∨ hiEnd ≤ a) (hagree : agreeRange s d lo hiEnd l) :
    agreeRange s d lo hiEnd l' := by
  intro p q hp1 hp2 hq1 hq2
  refine forall_of_reordersRange h (P := fun i => agreeBelow s d i (l'.getD q 0)) hab (fun p hp1 hp2 => ?_) p hp1 hp2
  exact forall_of_reordersRange h (P := agreeBelow s d (l.getD p 0)) hab
    (fun q hq1 hq2 => hagree p q hp1 hp2 hq1 hq2) q hq1 hq2

theorem agreeRange_mono {s : List Byte} {d lo hiEnd a b : Nat} {l : List Nat} (h : agreeRange s d lo hiEnd l)
    (ha : lo ≤ a) (hb : b ≤ hiEnd) : agreeRange s d a b l :=
  fun p q hp1 hp2 hq1 hq2 => h p q (by omega) (by omega) (by omega) (by omega)

/-- The middle zone agrees one character deeper. -/
theorem agreeRange_mid {s : List Byte} {d v lo lt gtEnd hiEnd : Nat} {l : List Nat} (h : agreeRange s d lo hiEnd l)
    (hlo : lo ≤ lt) (hhi : gtEnd ≤ hiEnd) (hz : zoned s d v lo lt gtEnd gtEnd hiEnd l) :
    agreeRange s (d + 1) lt gtEnd l := by
  obtain ⟨-, hmid, -⟩ := hz
  intro p q hp1 hp2 hq1 hq2 e he
  rcases Nat.lt_succ_iff_lt_or_eq.1 he with he | rfl
  · exact h p q (by omega) (by omega) (by omega) (by omega) e he
  · rw [hmid p hp1 hp2, hmid q hq1 hq2]

/-- A range with nothing left to compare is sorted. -/
theorem sortedRange_of_agreeRange {s : List Byte} {m d lo hiEnd : Nat} {l : List Nat} (h : agreeRange s d lo hiEnd l)
    (hm : m ≤ d) : sortedRange s m lo hiEnd l := by
  intro p q h1 h2 h3
  have hagree := h p q h1 (by omega) (by omega) h3
  exact (rotPrefix_eq_of_agreeBelow fun e he => hagree e (by omega)).le

theorem sortedRange_of_reordersRange {s : List Byte} {m lo hiEnd a b : Nat} {l l' : List Nat}
    (h : reordersRange a b l l') (hab : hiEnd ≤ a ∨ b ≤ lo) (hs : sortedRange s m lo hiEnd l) :
    sortedRange s m lo hiEnd l' := by
  intro p q h1 h2 h3
  rw [h.1 p (by omega), h.1 q (by omega)]
  exact hs p q h1 h2 h3

/-- Three sorted zones make a sorted range: across zones the character at depth `d` decides. -/
theorem sortedRange_of_zoned {s : List Byte} {m d v lo lt gtEnd hiEnd : Nat} {l : List Nat} (hd : d < m)
    (hagree : agreeRange s d lo hiEnd l) (hz : zoned s d v lo lt gtEnd gtEnd hiEnd l) (hlow : sortedRange s m lo lt l)
    (hmid : sortedRange s m lt gtEnd l) (hhigh : sortedRange s m gtEnd hiEnd l) : sortedRange s m lo hiEnd l := by
  obtain ⟨hzlow, hzmid, hzhigh⟩ := hz
  intro p q h1 h2 h3
  have hdecide : charAt s (l.getD p 0) d < charAt s (l.getD q 0) d →
      rotPrefix s m (l.getD p 0) ≤ rotPrefix s m (l.getD q 0) := fun hlt =>
    ((rotPrefix_lt_iff s m _ _).2 ⟨d, hd, hagree p q h1 (by omega) (by omega) h3, hlt⟩).le
  rcases Nat.lt_or_ge p lt with hp | hp
  · have hcp := hzlow p h1 hp
    rcases Nat.lt_or_ge q lt with hq | hq
    · exact hlow p q h1 h2 hq
    rcases Nat.lt_or_ge q gtEnd with hq' | hq'
    · exact hdecide (hcp.trans_eq (hzmid q hq hq').symm)
    · exact hdecide (hcp.trans (hzhigh q hq' h3))
  rcases Nat.lt_or_ge p gtEnd with hp' | hp'
  · rcases Nat.lt_or_ge q gtEnd with hq | hq
    · exact hmid p q hp h2 hq
    · exact hdecide ((hzmid p hp hp').trans_lt (hzhigh q hq h3))
  · exact hhigh p q hp' h2 h3

/-- The zones sorted one after the other, each in its own place. -/
theorem sortedRange_of_zones_sorted {s : List Byte} {m d v lo lt gtEnd hiEnd : Nat} {l l1 l2 l3 : List Nat} (hd : d < m)
    (hlo : lo ≤ lt) (hlt : lt < gtEnd) (hhi : gtEnd ≤ hiEnd) (hagree : agreeRange s d lo hiEnd l)
    (hz : zoned s d v lo lt gtEnd gtEnd hiEnd l) (h1 : reordersRange lo lt l l1) (h2 : reordersRange lt gtEnd l1 l2)
    (h3 : reordersRange gtEnd hiEnd l2 l3) (hlow : sortedRange s m lo lt l1) (hmid : sortedRange s m lt gtEnd l2)
    (hhigh : sortedRange s m gtEnd hiEnd l3) : sortedRange s m lo hiEnd l3 := by
  have hagree3 : agreeRange s d lo hiEnd l3 :=
    agreeRange_of_reordersRange h3 (by omega) (agreeRange_of_reordersRange h2 (by omega)
      (agreeRange_of_reordersRange h1 (by omega) hagree))
  have hz3 : zoned s d v lo lt gtEnd gtEnd hiEnd l3 :=
    zoned_of_reordersRange h3 hlt.le (by omega) (zoned_of_reordersRange h2 hlt.le (by omega)
      (zoned_of_reordersRange h1 hlt.le (by omega) hz))
  have hlow3 := sortedRange_of_reordersRange h3 (.inl hlt.le) (sortedRange_of_reordersRange h2 (.inl le_rfl) hlow)
  have hmid3 := sortedRange_of_reordersRange h3 (.inl le_rfl) hmid
  exact sortedRange_of_zoned hd hagree3 hz3 hlow3 hmid3 hhigh

/-! ### The sort -/

/-- A call that does not stop at once sorts the three zones of a partition, the middle one a character deeper (R122). -/
theorem sort3_succ (s : List Byte) (L : Int) (fuel lo hiEnd d : Nat) (l : List Nat) (hl : hiEnd ≤ l.length)
    (h : ¬(hiEnd ≤ lo + 1 ∨ (d : Int) > L)) :
    ∃ p v, Partition.cuts p s d v lo hiEnd l ∧ p.index.length = l.length ∧
      sort3 s L (fuel + 1) lo hiEnd d l =
        sort3 s L fuel p.gtEnd hiEnd d (sort3 s L fuel p.lt p.gtEnd (d + 1) (sort3 s L fuel lo p.lt d p.index)) :=
  ⟨partitionAt s lo hiEnd d l, _, partitionAt_cuts s lo hiEnd d l (by omega) hl, length_scan _ _ _ _ _ _ _, if_neg h⟩

theorem sort3_reordersRange (s : List Byte) (L : Int) (fuel lo hiEnd d : Nat) (l : List Nat) (hl : hiEnd ≤ l.length) :
    reordersRange lo hiEnd l (sort3 s L fuel lo hiEnd d l) := by
  induction fuel generalizing lo hiEnd d l with
  | zero => exact reordersRange_refl lo hiEnd l
  | succ fuel ih =>
    by_cases hstop : hiEnd ≤ lo + 1 ∨ (d : Int) > L
    · rw [sort3, if_pos hstop]
      exact reordersRange_refl lo hiEnd l
    · obtain ⟨p, v, ⟨hlo, hlt, hhi, -, hpart⟩, hlen, e⟩ := sort3_succ s L fuel lo hiEnd d l hl hstop
      have hzone : ∀ a b d l', lo ≤ a → b ≤ hiEnd → l'.length = l.length →
          reordersRange lo hiEnd l' (sort3 s L fuel a b d l') := fun a b d l' ha hb hl' =>
        reordersRange_mono (ih a b d l' (by omega)) ha hb
      rw [e]
      refine reordersRange_trans hpart (reordersRange_trans (hzone _ _ _ _ le_rfl (by omega) hlen)
        (reordersRange_trans (hzone _ _ _ _ hlo hhi ?_) (hzone _ _ _ _ (by omega) le_rfl ?_))) <;>
      simp only [length_sort3, hlen]

/-- A range whose entries agree below depth `d` comes out in order by the first `m = L + 1` characters, if the bound on
the recursion exceeds what the range can shrink and the depth can grow. -/
theorem sort3_sortedRange (s : List Byte) (m fuel lo hiEnd d : Nat) (l : List Nat) (hl : hiEnd ≤ l.length)
    (hfuel : hiEnd - lo + (m - d) < fuel) (hagree : agreeRange s d lo hiEnd l) :
    sortedRange s m lo hiEnd (sort3 s ((m : Int) - 1) fuel lo hiEnd d l) := by
  induction fuel generalizing lo hiEnd d l with
  | zero => omega
  | succ fuel ih =>
    by_cases hstop : hiEnd ≤ lo + 1 ∨ (d : Int) > (m : Int) - 1
    · rw [sort3, if_pos hstop]
      rcases hstop with hshort | hdeep
      · intro p q h1 h2 h3
        omega
      · exact sortedRange_of_agreeRange hagree (by omega)
    · obtain ⟨p, v, ⟨hlo, hlt, hhi, hz, hpart⟩, hlen, e⟩ := sort3_succ s _ fuel lo hiEnd d l hl hstop
      replace hagree := agreeRange_of_reordersRange hpart (.inl ⟨le_rfl, le_rfl⟩) hagree
      have h1 := sort3_reordersRange s ((m : Int) - 1) fuel lo p.lt d p.index (by omega)
      have hlow := ih lo p.lt d p.index (by omega) (by omega) (agreeRange_mono hagree le_rfl (by omega))
      have hlen1 := length_sort3 s ((m : Int) - 1) fuel lo p.lt d p.index
      generalize sort3 s _ fuel lo p.lt d p.index = l1 at h1 hlow hlen1 e
      have h2 := sort3_reordersRange s ((m : Int) - 1) fuel p.lt p.gtEnd (d + 1) l1 (by omega)
      have hmid := ih p.lt p.gtEnd (d + 1) l1 (by omega) (by omega)
        (agreeRange_of_reordersRange h1 (.inr (.inl le_rfl)) (agreeRange_mid hagree hlo hhi hz))
      have hlen2 := length_sort3 s ((m : Int) - 1) fuel p.lt p.gtEnd (d + 1) l1
      generalize sort3 s _ fuel p.lt p.gtEnd (d + 1) l1 = l2 at h2 hmid hlen2 e
      have h3 := sort3_reordersRange s ((m : Int) - 1) fuel p.gtEnd hiEnd d l2 (by omega)
      have hhigh := ih p.gtEnd hiEnd d l2 (by omega) (by omega) (agreeRange_of_reordersRange h2 (.inr (.inl le_rfl))
        (agreeRange_of_reordersRange h1 (.inr (.inl hlt.le)) (agreeRange_mono hagree (by omega) le_rfl)))
      rw [e]
      exact sortedRange_of_zones_sorted (by omega) hlo hlt hhi hagree hz h1 h2 h3 hlow hmid hhigh

/-- The bound `lim` of R121 is one less than the number of characters the sort compares. -/
theorem lim_eq (n : Nat) (cut : Bool) : lim n cut = ((if cut then n / 2 else n : Nat) : Int) - 1 := by
  cases cut <;> rfl

/-- The sort orders the rotations by the characters within its depth bound (R121, R124, R127). -/
theorem sortPerm_sortedRange (s : List Byte) (cut : Bool) :
    sortedRange s (if cut then s.length / 2 else s.length) 0 s.length (sortPerm s cut) := by
  rw [sortPerm, lim_eq]
  have hagree : agreeRange s 0 0 s.length (List.range s.length) := fun _ _ _ _ _ _ e he => absurd he e.not_lt_zero
  refine sort3_sortedRange s _ _ 0 s.length 0 _ (by rw [List.length_range]) ?_ hagree
  rw [sortFuel]
  split <;> omega

/-- With cut = 0 the rotations come out in lexicographic order (R124). -/
theorem pairwise_rot_sortPerm (s : List Byte) : ((sortPerm s false).map (rot s)).Pairwise (fun a b => a ≤ b) := by
  rw [List.pairwise_map, List.pairwise_iff_getElem]
  intro p q hp hq hpq
  have h := sortPerm_sortedRange s false p q (Nat.zero_le p) hpq (by simpa using hq)
  rwa [List.getD_eq_getElem _ _ hp, List.getD_eq_getElem _ _ hq] at h

end Sys2Proof.Machine
end

section
/-! SUPPORT. The inverse transform undoes the forward one (R143, R147): `next` takes a rank to the rank of the rotation
that starts one character earlier, so the walk reads the input from its end. -/

namespace Sys2Proof.Machine

/-! ### Rotations -/

/-- Characters wrap, so an offset counts modulo n (R120). -/
theorem charAt_add (s : List Byte) (j a d : Nat) : charAt s (j + a) d = charAt s j (a + d) := by
  rw [charAt, charAt, Nat.add_assoc]

theorem charAt_mod (s : List Byte) (j d : Nat) : charAt s (j % s.length) d = charAt s j d := by
  rw [charAt, charAt, Nat.mod_add_mod]

theorem charAt_depth_mod (s : List Byte) (j d : Nat) : charAt s j (d % s.length) = charAt s j d := by
  rw [charAt, charAt, Nat.add_mod_mod]

theorem rot_mod (s : List Byte) (j : Nat) : rot s (j % s.length) = rot s j :=
  List.map_congr_left fun d _ => charAt_mod s j d

/-- Equal rotations have the same character at every depth. -/
theorem charAt_eq_of_rot_eq {s : List Byte} (hs : 0 < s.length) {i j : Nat} (h : rot s i = rot s j) (d : Nat) :
    charAt s i d = charAt s j d := by
  have hd := List.map_inj_left.1 h (d % s.length) (List.mem_range.2 (Nat.mod_lt d hs))
  rwa [charAt_depth_mod, charAt_depth_mod] at hd

/-- The offset before `j`, wrapping, as the last column uses it (R140). -/
def prevOffset (s : List Byte) (j : Nat) : Nat := (j + s.length - 1) % s.length

theorem charAt_prevOffset_zero {s : List Byte} (hs : 0 < s.length) (j : Nat) :
    charAt s (prevOffset s j) 0 = charAt s j (s.length - 1) := by
  rw [prevOffset, charAt_mod, Nat.add_sub_assoc hs, charAt_add, Nat.add_zero]

theorem charAt_prevOffset_succ {s : List Byte} (hs : 0 < s.length) (j d : Nat) :
    charAt s (prevOffset s j) (d + 1) = charAt s j d := by
  rw [prevOffset, charAt_mod, Nat.add_sub_assoc hs, charAt_add, show s.length - 1 + (d + 1) = s.length + d by omega,
    ← charAt_depth_mod, Nat.add_mod_left, charAt_depth_mod]

theorem rot_prevOffset_congr {s : List Byte} (hs : 0 < s.length) {i j : Nat} (h : rot s i = rot s j) :
    rot s (prevOffset s i) = rot s (prevOffset s j) := by
  refine List.map_congr_left fun d _ => ?_
  cases d with
  | zero => rw [charAt_prevOffset_zero hs, charAt_prevOffset_zero hs, charAt_eq_of_rot_eq hs h]
  | succ d => rw [charAt_prevOffset_succ hs, charAt_prevOffset_succ hs, charAt_eq_of_rot_eq hs h]

/-- Rotations one character earlier are in order by that character. -/
theorem rot_prevOffset_lt_of_last_lt {s : List Byte} (hs : 0 < s.length) {i j : Nat}
    (h : charAt s i (s.length - 1) < charAt s j (s.length - 1)) :
    rot s (prevOffset s i) < rot s (prevOffset s j) := by
  refine (rotPrefix_lt_iff s s.length _ _).2 ⟨0, hs, fun e he => absurd he e.not_lt_zero, ?_⟩
  rwa [charAt_prevOffset_zero hs, charAt_prevOffset_zero hs]

/-- Where that character is the same, they are in the order of the rotations themselves. -/
theorem rot_prevOffset_le_of_le {s : List Byte} (hs : 0 < s.length) {i j : Nat}
    (hlast : charAt s i (s.length - 1) = charAt s j (s.length - 1)) (h : rot s i ≤ rot s j) :
    rot s (prevOffset s i) ≤ rot s (prevOffset s j) := by
  rcases h.eq_or_lt with heq | hlt
  · exact (rot_prevOffset_congr hs heq).le
  · obtain ⟨d, hd, hagree, hlt⟩ := (rotPrefix_lt_iff s s.length i j).1 hlt
    have hd1 : d + 1 < s.length := by
      by_contra hge
      rw [show d = s.length - 1 by omega, hlast] at hlt
      exact lt_irrefl _ hlt
    refine ((rotPrefix_lt_iff s s.length _ _).2 ⟨d + 1, hd1, fun e he => ?_, ?_⟩).le
    · cases e with
      | zero => rw [charAt_prevOffset_zero hs, charAt_prevOffset_zero hs, hlast]
      | succ e => rw [charAt_prevOffset_succ hs, charAt_prevOffset_succ hs, hagree e (by omega)]
    · rwa [charAt_prevOffset_succ hs, charAt_prevOffset_succ hs]

/-- Distinct numbers below their count are all the numbers below it. -/
theorem perm_range_of_nodup (l : List Nat) (hn : l.Nodup) (hlt : ∀ a ∈ l, a < l.length) :
    l.Perm (List.range l.length) :=
  (List.subperm_of_subset hn fun a ha => List.mem_range.2 (hlt a ha)).perm_of_length_le (by rw [List.length_range])

theorem prevOffset_lt {s : List Byte} (hs : 0 < s.length) (j : Nat) : prevOffset s j < s.length := Nat.mod_lt _ hs

theorem prevOffset_succ_mod (s : List Byte) (j : Nat) : prevOffset s (j + 1) = j % s.length := by
  rw [prevOffset, Nat.add_right_comm, Nat.add_sub_cancel, Nat.add_mod_right]

theorem prevOffset_inj {s : List Byte} {i j : Nat} (hi : i < s.length) (hj : j < s.length)
    (h : prevOffset s i = prevOffset s j) : i = j := by
  have back : ∀ k, k < s.length → (prevOffset s k + 1) % s.length = k := by
    intro k hk
    rw [prevOffset, Nat.mod_add_mod, show k + s.length - 1 + 1 = k + s.length by omega, Nat.add_mod_right,
      Nat.mod_eq_of_lt hk]
  rw [← back i hi, h, back j hj]

/-- Going one character back reorders the offsets 0..n-1. -/
theorem map_prevOffset_perm {s : List Byte} (hs : 0 < s.length) {index : List Nat}
    (h : index.Perm (List.range s.length)) : (index.map (prevOffset s)).Perm (List.range s.length) := by
  have hlen : (index.map (prevOffset s)).length = s.length := by rw [List.length_map, h.length_eq, List.length_range]
  rw [← hlen]
  refine perm_range_of_nodup _ ?_ fun a ha => ?_
  · refine List.Nodup.map_on (fun i hi j hj => prevOffset_inj ?_ ?_) (h.nodup_iff.2 List.nodup_range)
    · exact List.mem_range.1 (h.mem_iff.1 hi)
    · exact List.mem_range.1 (h.mem_iff.1 hj)
  · obtain ⟨j, -, rfl⟩ := List.mem_map.1 ha
    exact hlen ▸ prevOffset_lt hs j

/-! ### The next array -/

@[simp] theorem length_nextFrom (bytes : List Byte) (count : List Nat) :
    (nextFrom bytes count).length = bytes.length := by
  induction bytes generalizing count with
  | nil => rfl
  | cons b rest ih => rw [nextFrom, List.length_cons, ih, List.length_cons]

@[simp] theorem length_nextArray (last : List Byte) : (nextArray last).length = last.length := length_nextFrom _ _

/-- The running counts of R143 step 2: where the byte started, and one for each equal byte passed. -/
theorem getD_nextFrom (bytes : List Byte) (count : List Nat) (k : Nat) (h : k < bytes.length)
    (hcount : 256 ≤ count.length) :
    (nextFrom bytes count).getD k 0 = count.getD bytes[k].toNat 0 + (bytes.take k).count bytes[k] := by
  induction bytes generalizing count k with
  | nil => cases h
  | cons b rest ih =>
    cases k with
    | zero => rfl
    | succ k =>
      have hk : k < rest.length := Nat.lt_of_succ_lt_succ h
      have hb : b.toNat < count.length := by have := b.isLt; omega
      rw [nextFrom, List.getD_cons_succ, ih _ k hk (by rwa [List.length_set]), List.take_succ_cons, List.count_cons,
        List.getElem_cons_succ]
      by_cases hbk : b = rest[k]
      · subst hbk
        simp [List.getD_eq_getElem?_getD, hb]
        omega
      · have hne : b.toNat ≠ rest[k].toNat := fun e => hbk (BitVec.eq_of_toNat_eq e)
        simp [List.getD_eq_getElem?_getD, List.getElem?_set_ne hne, hbk]

/-- `next[k]` counts the smaller bytes of the last column, and the equal ones in front of `k` (R143). -/
theorem getD_nextArray (last : List Byte) (k : Nat) (h : k < last.length) :
    (nextArray last).getD k 0 =
      last.countP (fun b => decide (b.toNat < last[k].toNat)) + (last.take k).count last[k] := by
  have hlt : last[k].toNat < 257 := by have := last[k].isLt; omega
  rw [nextArray, getD_nextFrom last _ k h (by simp [countBelow])]
  simp [countBelow, List.getD_eq_getElem?_getD, List.getElem?_range hlt]

/-- The bytes below `b` and those equal to it all lie below a larger bound. -/
theorem countP_lt_add_count_le (l : List Byte) (b : Byte) (c : Nat) (h : b.toNat < c) :
    l.countP (fun x => decide (x.toNat < b.toNat)) + l.count b ≤ l.countP (fun x => decide (x.toNat < c)) := by
  induction l with
  | nil => exact le_rfl
  | cons a l ih =>
    simp only [List.countP_cons, List.count_cons, decide_eq_true_eq, beq_iff_eq]
    rcases eq_or_ne a b with rfl | hab
    · simp only [lt_irrefl, if_false, if_true, h]
      omega
    · have : a.toNat < b.toNat → a.toNat < c := fun hlt => hlt.trans h
      split_ifs <;> omega

/-- A byte is counted once more past its own position. -/
theorem count_take_lt (l : List Byte) (i j : Nat) (hi : i < l.length) (hij : i < j) :
    (l.take i).count l[i] < (l.take j).count l[i] := by
  have hsub := (List.take_sublist_take_left (l := l) (Nat.succ_le_of_lt hij)).count_le l[i]
  rw [List.take_succ_eq_append_getElem hi, List.count_append, List.count_singleton_self] at hsub
  omega

/-- An entry of `next` lies below the count of any bound above its byte. -/
theorem getD_nextArray_lt_countP (last : List Byte) (k c : Nat) (h : k < last.length) (hc : last[k].toNat < c) :
    (nextArray last).getD k 0 < last.countP (fun x => decide (x.toNat < c)) := by
  have hcount := count_take_lt last k last.length h h
  rw [List.take_length] at hcount
  have hle := countP_lt_add_count_le last last[k] c hc
  rw [getD_nextArray last k h]
  omega

/-- `next` follows the order of the bytes, and of the positions where the bytes are equal. -/
theorem nextArray_lt (last : List Byte) (i j : Nat) (hi : i < last.length) (hj : j < last.length)
    (h : last[i].toNat < last[j].toNat ∨ last[i] = last[j] ∧ i < j) :
    (nextArray last).getD i 0 < (nextArray last).getD j 0 := by
  rcases h with hlt | ⟨heq, hij⟩
  · have := getD_nextArray_lt_countP last i _ hi hlt
    rw [getD_nextArray last j hj]
    omega
  · have hcount := count_take_lt last i j hi hij
    rw [getD_nextArray last i hi, getD_nextArray last j hj, ← heq]
    omega

/-- Two positions are ordered by their bytes, or by themselves where the bytes are equal. -/
theorem byte_position_cases (last : List Byte) (i j : Nat) (hi : i < last.length) (hj : j < last.length) (hij : i ≠ j) :
    (last[i].toNat < last[j].toNat ∨ last[i] = last[j] ∧ i < j) ∨
    (last[j].toNat < last[i].toNat ∨ last[j] = last[i] ∧ j < i) := by
  rcases lt_trichotomy last[i].toNat last[j].toNat with hlt | heq | hgt
  · exact .inl (.inl hlt)
  · have heq := BitVec.eq_of_toNat_eq heq
    rcases Nat.lt_or_gt_of_ne hij with hlt | hgt
    · exact .inl (.inr ⟨heq, hlt⟩)
    · exact .inr (.inr ⟨heq.symm, hgt⟩)
  · exact .inr (.inl hgt)

/-- `next` is a permutation of 0..n-1 (R143). -/
theorem nextArray_perm (last : List Byte) : (nextArray last).Perm (List.range last.length) := by
  have hlen := length_nextArray last
  rw [← hlen]
  refine perm_range_of_nodup _ (List.nodup_iff_getElem?_ne_getElem?.2 ?_) fun a ha => ?_
  · intro i j hij hj heq
    have hne : (nextArray last).getD i 0 = (nextArray last).getD j 0 := by
      rw [List.getD_eq_getElem?_getD, heq, List.getD_eq_getElem?_getD]
    rcases byte_position_cases last i j (by omega) (by omega) hij.ne with h | h
    · have := nextArray_lt last i j (by omega) (by omega) h
      omega
    · have := nextArray_lt last j i (by omega) (by omega) h
      omega
  · obtain ⟨k, hk, rfl⟩ := List.getElem_of_mem ha
    have h := getD_nextArray_lt_countP last k 256 (by omega) (BitVec.isLt _)
    rw [List.getD_eq_getElem _ _ hk] at h
    exact hlen ▸ h.trans_le List.countP_le_length

/-! ### Sorting by the next array -/

theorem map_idxOf_self (l : List Nat) (h : l.Nodup) : l.map l.idxOf = List.range l.length := by
  refine List.ext_getElem (by simp) fun i h1 h2 => ?_
  rw [List.getElem_map, List.getElem_range, h.idxOf_getElem]

/-- A sorted list `l` of the values `f 0 .. f (n-1)` has `f i` at place `places[i]`, if the places follow the order of
the values. -/
theorem getElem?_sorted_place {α : Type} [LinearOrder α] (l : List α) (f : Nat → α) (places : List Nat) (n : Nat)
    (hsorted : l.Pairwise (fun a b => a ≤ b)) (hperm : l.Perm ((List.range n).map f))
    (hplaces : places.Perm (List.range n))
    (horder : ∀ i j, i < n → j < n → places.getD i 0 < places.getD j 0 → f i ≤ f j) (i : Nat) (hi : i < n) :
    l[places.getD i 0]? = some (f i) := by
  have hnodup := hplaces.nodup_iff.2 List.nodup_range
  have hlen : places.length = n := by rw [hplaces.length_eq, List.length_range]
  have hidx : ∀ p, p < n → places.idxOf p < n ∧ places.getD (places.idxOf p) 0 = p := by
    intro p hp
    have hmem := List.idxOf_lt_length_of_mem (hplaces.mem_iff.2 (List.mem_range.2 hp))
    exact ⟨hlen ▸ hmem, by rw [List.getD_eq_getElem _ _ hmem, List.getElem_idxOf hmem]⟩
  have hl : l = (List.range n).map fun p => f (places.idxOf p) := by
    refine List.Perm.eq_of_pairwise' hsorted ?_ ?_
    · refine List.pairwise_map.2 (List.pairwise_lt_range.imp_of_mem fun {p q} hp hq hpq => ?_)
      obtain ⟨hp1, hp2⟩ := hidx p (List.mem_range.1 hp)
      obtain ⟨hq1, hq2⟩ := hidx q (List.mem_range.1 hq)
      exact horder _ _ hp1 hq1 (by rwa [hp2, hq2])
    · have hvalues : (List.range n).map f = places.map fun p => f (places.idxOf p) := by
        rw [← hlen, ← map_idxOf_self places hnodup, List.map_map]
        rfl
      exact hperm.trans (hvalues ▸ hplaces.map _)
  have hget := List.getD_eq_getElem places 0 (hlen ▸ hi)
  have hlt : places.getD i 0 < n := List.mem_range.1 (hplaces.mem_iff.1 (hget ▸ List.getElem_mem _))
  rw [hl, List.getElem?_map, List.getElem?_range hlt, Option.map_some, hget, hnodup.idxOf_getElem]

/-! ### The walk -/

/-- A byte of the last column is the last character of its rotation (R140). -/
theorem toNat_getD_lastColumn {s : List Byte} (hs : 0 < s.length) (index : List Nat) (r : Nat) (h : r < index.length) :
    ((lastColumn s index).getD r 0#8).toNat = charAt s (index.getD r 0) (s.length - 1) := by
  rw [getD_lastColumn s index r h, charAt, Nat.add_sub_assoc hs]

theorem map_eq_map_range_getD {α : Type} (l : List Nat) (g : Nat → α) :
    l.map g = (List.range l.length).map fun r => g (l.getD r 0) :=
  List.ext_getElem (by simp) fun r h1 h2 => by
    simp only [List.length_map] at h1
    simp [List.getElem?_eq_getElem h1]

/-- The rotations one character back, taken by their ranks, are all the rotations again. -/
theorem map_rot_perm {s : List Byte} (hs : 0 < s.length) {index : List Nat} (hperm : index.Perm (List.range s.length)) :
    (index.map (rot s)).Perm ((List.range s.length).map fun r => rot s (prevOffset s (index.getD r 0))) := by
  have hlen : index.length = s.length := by rw [hperm.length_eq, List.length_range]
  have hback := (hperm.trans (map_prevOffset_perm hs hperm).symm).map (rot s)
  rwa [List.map_map, map_eq_map_range_getD index (rot s ∘ prevOffset s), hlen] at hback

/-- `next` follows the order of the rotations one character back: their first character decides, and where it is the
same, the order of the ranks. -/
theorem rot_prevOffset_le_of_nextArray_lt {s : List Byte} (hs : 0 < s.length) {index : List Nat}
    (hlen : index.length = s.length) (hsorted : (index.map (rot s)).Pairwise (fun a b => a ≤ b)) (i j : Nat)
    (hi : i < s.length) (hj : j < s.length)
    (h : (nextArray (lastColumn s index)).getD i 0 < (nextArray (lastColumn s index)).getD j 0) :
    rot s (prevOffset s (index.getD i 0)) ≤ rot s (prevOffset s (index.getD j 0)) := by
  have hlast : ∀ r (hr : r < (lastColumn s index).length),
      (lastColumn s index)[r].toNat = charAt s (index.getD r 0) (s.length - 1) := fun r hr => by
    rw [← List.getD_eq_getElem _ 0#8 hr, toNat_getD_lastColumn hs index r (by simpa using hr)]
  have hi' : i < (lastColumn s index).length := by rwa [length_lastColumn, hlen]
  have hj' : j < (lastColumn s index).length := by rwa [length_lastColumn, hlen]
  have hij : i ≠ j := by
    rintro rfl
    exact lt_irrefl _ h
  rcases byte_position_cases (lastColumn s index) i j hi' hj' hij with (hlt | ⟨heq, hlt⟩) | hback
  · rw [hlast i hi', hlast j hj'] at hlt
    exact (rot_prevOffset_lt_of_last_lt hs hlt).le
  · have hchar := congrArg BitVec.toNat heq
    rw [hlast i hi', hlast j hj'] at hchar
    have hle := List.pairwise_iff_getElem.1 hsorted i j (by simpa [hlen]) (by simpa [hlen]) hlt
    rw [List.getElem_map, List.getElem_map, ← List.getD_eq_getElem index 0, ← List.getD_eq_getElem index 0] at hle
    exact rot_prevOffset_le_of_le hs hchar hle
  · exact absurd (nextArray_lt (lastColumn s index) j i hj' hi' hback) h.asymm

/-- From a rank, `next` goes to the rank of the rotation one character back, up to equal rotations (R143). -/
theorem rot_getD_nextArray {s : List Byte} (hs : 0 < s.length) {index : List Nat}
    (hperm : index.Perm (List.range s.length)) (hsorted : (index.map (rot s)).Pairwise (fun a b => a ≤ b)) (i : Nat)
    (hi : i < s.length) :
    (nextArray (lastColumn s index)).getD i 0 < s.length ∧
    rot s (index.getD ((nextArray (lastColumn s index)).getD i 0) 0) = rot s (prevOffset s (index.getD i 0)) := by
  have hlen : index.length = s.length := by rw [hperm.length_eq, List.length_range]
  have hplaces := nextArray_perm (lastColumn s index)
  rw [length_lastColumn, hlen] at hplaces
  have hplace := getElem?_sorted_place _ _ _ s.length hsorted (map_rot_perm hs hperm) hplaces
    (rot_prevOffset_le_of_nextArray_lt hs hlen hsorted) i hi
  obtain ⟨hlt, hget⟩ := List.getElem?_eq_some_iff.1 hplace
  have hlt' : (nextArray (lastColumn s index)).getD i 0 < index.length := by rwa [List.length_map] at hlt
  rw [List.getElem_map, ← List.getD_eq_getElem index 0 hlt'] at hget
  exact ⟨hlen ▸ hlt', hget⟩

/-- The walk from a rank whose rotation is the one at offset `k` reads the first `k` bytes, from the last to the
first. -/
theorem walk_eq_take_append {s : List Byte} (hs : 0 < s.length) {index : List Nat}
    (hperm : index.Perm (List.range s.length)) (hsorted : (index.map (rot s)).Pairwise (fun a b => a ≤ b)) (k cur : Nat)
    (out : List Byte) (hk : k ≤ s.length) (hcur : cur < s.length) (hrot : rot s (index.getD cur 0) = rot s k) :
    walk (lastColumn s index) (nextArray (lastColumn s index)) k cur out = s.take k ++ out := by
  have hlen : index.length = s.length := by rw [hperm.length_eq, List.length_range]
  induction k generalizing cur out with
  | zero => rfl
  | succ k ih =>
    obtain ⟨hnext, hrotNext⟩ := rot_getD_nextArray hs hperm hsorted cur hcur
    have hprev : rot s (prevOffset s (index.getD cur 0)) = rot s k := by
      rw [rot_prevOffset_congr hs hrot, prevOffset_succ_mod, rot_mod]
    have hbyte : (lastColumn s index).getD cur 0#8 = s[k] := by
      apply BitVec.eq_of_toNat_eq
      rw [toNat_getD_lastColumn hs index cur (hlen ▸ hcur), charAt_eq_of_rot_eq hs hrot, charAt,
        show k + 1 + (s.length - 1) = k + s.length by omega, Nat.add_mod_right, Nat.mod_eq_of_lt hk,
        List.getD_eq_getElem _ _ hk]
    rw [walk, ih _ _ (Nat.le_of_succ_le hk) hnext (hrotNext.trans hprev), hbyte, List.take_succ_eq_append_getElem hk,
      List.append_assoc, List.singleton_append]

/-- The inverse of the forward transform is the input, for every order of identical rotations (R147, R148). -/
theorem bwtInverse_lastColumn {s : List Byte} (hs : 0 < s.length) {index : List Nat}
    (hperm : index.Perm (List.range s.length)) (hsorted : (index.map (rot s)).Pairwise (fun a b => a ≤ b)) :
    bwtInverse (firstRank index) (lastColumn s index) = s := by
  have hlen : index.length = s.length := by rw [hperm.length_eq, List.length_range]
  have hzero : 0 ∈ index := hperm.mem_iff.2 (List.mem_range.2 hs)
  have hrot : rot s (index.getD (firstRank index) 0) = rot s s.length := by
    rw [getD_firstRank index hzero, ← rot_mod s s.length, Nat.mod_self]
  rw [bwtInverse, length_lastColumn, hlen, walk_eq_take_append hs hperm hsorted s.length _ [] le_rfl
    (hlen ▸ firstRank_lt index hzero) hrot, List.take_length, List.append_nil]

/-- With cut = 0 the inverse of the forward transform is the input (R147). -/
theorem bwtInverse_sortPerm {s : List Byte} (hs : 0 < s.length) :
    bwtInverse (firstRank (sortPerm s false)) (lastColumn s (sortPerm s false)) = s :=
  bwtInverse_lastColumn hs (sortPerm_perm s false) (pairwise_rot_sortPerm s)

/-! ### The round trip on the block -/

/-- FIRST_OUT of a non-empty forward transform as a number: a rank below n fits the word (R8, R141). -/
theorem toNat_firstOut_bwtf (s : State) (hlegal : s.params.legal = true) (h1 : 1 ≤ s.n)
    (hl : s.n ≤ s.params.nmax) :
    (outputsOf .bwtf s).firstOut.toNat = firstRank (sortPerm s.operand false) ∧
    firstRank (sortPerm s.operand false) < s.n := by
  obtain ⟨-, hnmax, -⟩ := (legal_iff s.params).1 hlegal
  have hrank := firstRank_lt _ (zero_mem_sortPerm s.operand false (by rwa [length_operand]))
  rw [length_sortPerm, length_operand] at hrank
  refine ⟨?_, hrank⟩
  rw [firstOut_outputsOf .bwtf s rfl, if_neg (by omega), indexWord, BitVec.toNat_ofNat]
  exact Nat.mod_eq_of_lt (show firstRank (sortPerm s.operand false) < 2 ^ 32 by omega)

/-- The host's copy of DST to SRC makes the last column the operand (R111, R147). -/
theorem operand_of_copy (s u : State) (hlegal : s.params.legal = true) (hl : s.n ≤ s.params.nmax)
    (hlen : u.len = s.len) (hcopy : ∀ k, k < s.len.toNat → u.srcByte k = (outputsOf .bwtf s).dstByte k) :
    u.operand = lastColumn s.operand (sortPerm s.operand false) := by
  obtain ⟨-, hnmax, -⟩ := (legal_iff s.params).1 hlegal
  have hn : u.n = s.n := congrArg BitVec.toNat hlen
  refine List.ext_getElem (by simp [hn]) fun k hk1 hk2 => ?_
  have hk : k < s.n := by simpa [hn] using hk1
  rw [← List.getD_eq_getElem _ 0#8 hk1, ← List.getD_eq_getElem _ 0#8 hk2, getD_operand u k (hn ▸ hk), hcopy k hk]
  exact dstByte_outputsOf .bwtf s k rfl hk fun _ => by omega

/-- Settles O32: it holds; the copies give BWTI the last column and the rank of offset 0, of which the input is the
inverse. The cut sort of "ABA" is evaluated. -/
theorem bwtRoundTripOnTheBlock : Obligations.BwtRoundTripOnTheBlock := by
  unfold Obligations.BwtRoundTripOnTheBlock
  refine ⟨fun s hlegal hl => ?_, ?_⟩
  · refine ⟨_, exec_ok .bwtf s (operandError_of_len .bwtf s hl (by decide)), fun u hparams hlen hfirst hcopy => ?_⟩
    have hn : u.n = s.n := congrArg BitVec.toNat hlen
    have hrank : 1 ≤ s.n → u.firstIndex = firstRank (sortPerm s.operand false) ∧ u.firstIndex < s.n := fun h1 => by
      obtain ⟨hfo, hlt⟩ := toNat_firstOut_bwtf s hlegal h1 hl
      have hfi : u.firstIndex = firstRank (sortPerm s.operand false) := (congrArg BitVec.toNat hfirst).trans hfo
      exact ⟨hfi, hfi ▸ hlt⟩
    have hlenOk : u.lenError = none := lenError_none u (by rw [hlen, hparams]; exact hl)
    have hfirstOk : u.firstError = none := if_neg fun ⟨h1, hle⟩ => by
      obtain ⟨-, hlt⟩ := hrank (hn ▸ h1)
      omega
    obtain ⟨v, hv, hdone, -, -, hdst, -⟩ :=
      exec_of_writesDst_only .bwti u rfl rfl (Option.or_eq_none_iff.2 ⟨hlenOk, hfirstOk⟩)
    refine ⟨v, hv, hdone, fun k (hk : k < s.n) => ?_⟩
    obtain ⟨hfi, -⟩ := hrank (by omega)
    calc v.dstByte k
        = (bwtInverse u.firstIndex u.operand).getD k 0#8 := hdst k (hn ▸ hk)
      _ = s.operand.getD k 0#8 := by
        rw [hfi, operand_of_copy s u hlegal hl hlen hcopy, bwtInverse_sortPerm (by rw [length_operand]; omega)]
      _ = s.srcByte k := getD_operand s k hk
  · have hsort : sortPerm [65#8, 66#8, 65#8] true = [0, 2, 1] := by decide
    rw [hsort]
    decide

end Sys2Proof.Machine
end

section
/-! Settles the statements of the suffix sort (R120 to R127): the partition, the bound on the recursion, and the order of
the result. -/

namespace Sys2Proof.Machine

/-! ### The partition and the permutation -/

/-- Settles O23: it holds, by the zones that the scan of the range leaves. -/
theorem partitionMakesThreeZones : Obligations.PartitionMakesThreeZones := by
  unfold Obligations.PartitionMakesThreeZones
  rintro s lo hiEnd d v index p h hl rfl rfl
  obtain ⟨hlo, hlt, hhi, ⟨hlow, hmid, hhigh⟩, hframe, -⟩ := partitionAt_cuts s lo hiEnd d index h hl
  exact ⟨hlo, hlt, hhi, partitionAt_perm s lo hiEnd d index h hl, hframe, hlow, hmid, hhigh⟩

/-- Settles O25: it holds; the sort only swaps entries of 0..n-1. -/
theorem sortGivesPermutation : Obligations.SortGivesPermutation := by
  unfold Obligations.SortGivesPermutation
  exact sortPerm_perm

/-! ### The bound on the recursion -/

/-- A call that does not stop at once, with the partition it sorts the zones of (R122). -/
theorem sort3_eq_sort_zones (s : List Byte) (L : Int) (fuel lo hiEnd d : Nat) (l : List Nat)
    (h : ¬(hiEnd ≤ lo + 1 ∨ (d : Int) > L)) :
    sort3 s L (fuel + 1) lo hiEnd d l =
      sort3 s L fuel (partitionAt s lo hiEnd d l).gtEnd hiEnd d
        (sort3 s L fuel (partitionAt s lo hiEnd d l).lt (partitionAt s lo hiEnd d l).gtEnd (d + 1)
          (sort3 s L fuel lo (partitionAt s lo hiEnd d l).lt d (partitionAt s lo hiEnd d l).index)) :=
  if_neg h

/-- One more unit of recursion changes nothing once the bound exceeds what the range can shrink and the depth can grow:
each zone is shorter than the range or sorted a character deeper. -/
theorem sort3_fuel_succ (s : List Byte) (m fuel lo hiEnd d : Nat) (l : List Nat) (hl : hiEnd ≤ l.length)
    (hfuel : hiEnd - lo + (m - d) < fuel) :
    sort3 s ((m : Int) - 1) (fuel + 1) lo hiEnd d l = sort3 s ((m : Int) - 1) fuel lo hiEnd d l := by
  induction fuel generalizing lo hiEnd d l with
  | zero => omega
  | succ fuel ih =>
    by_cases hstop : hiEnd ≤ lo + 1 ∨ (d : Int) > (m : Int) - 1
    · rw [sort3, sort3, if_pos hstop, if_pos hstop]
    · obtain ⟨hlo, hlt, hhi, -⟩ := partitionAt_cuts s lo hiEnd d l (by omega) hl
      have hlen : (partitionAt s lo hiEnd d l).index.length = l.length := length_scan _ _ _ _ _ _ _
      rw [sort3_eq_sort_zones _ _ _ _ _ _ _ hstop, sort3_eq_sort_zones _ _ _ _ _ _ _ hstop,
        ih lo _ d _ (by omega) (by omega), ih _ _ (d + 1) _ (by rw [length_sort3]; omega) (by omega),
        ih _ hiEnd d _ (by rw [length_sort3, length_sort3]; omega) (by omega)]

theorem sort3_fuel_add (s : List Byte) (m fuel extra lo hiEnd d : Nat) (l : List Nat) (hl : hiEnd ≤ l.length)
    (hfuel : hiEnd - lo + (m - d) < fuel) :
    sort3 s ((m : Int) - 1) (fuel + extra) lo hiEnd d l = sort3 s ((m : Int) - 1) fuel lo hiEnd d l := by
  induction extra with
  | zero => rfl
  | succ extra ih => rw [← Nat.add_assoc, sort3_fuel_succ s m _ lo hiEnd d l hl (by omega), ih]

/-- Settles O24: it holds; the range has n entries and the depth at most n values, and the bound is 2 n + 1. -/
theorem sortBoundIsEnough : Obligations.SortBoundIsEnough := by
  unfold Obligations.SortBoundIsEnough
  intro s cut extra
  rw [sortPerm, lim_eq]
  refine sort3_fuel_add s _ _ extra 0 s.length 0 _ (by rw [List.length_range]) ?_
  rw [sortFuel]
  split <;> omega

/-! ### The order of the result -/

/-- Settles O26: it holds; all n characters lie within the depth bound. -/
theorem fullSortIsSorted : Obligations.FullSortIsSorted := by
  unfold Obligations.FullSortIsSorted
  exact fun s r1 r2 h12 h2 => sortPerm_sortedRange s false r1 r2 (Nat.zero_le r1) h12 h2

theorem take_rot {s : List Byte} {m : Nat} (h : m ≤ s.length) (j : Nat) : (rot s j).take m = rotPrefix s m j := by
  rw [rot, rotPrefix, ← List.map_take, List.take_range, Nat.min_eq_left h]

/-- Settles O27: it holds; the first n div 2 characters lie within the depth bound. Both sorts of "ABA" are evaluated. -/
theorem cutSortIsSortedByHalf : Obligations.CutSortIsSortedByHalf := by
  unfold Obligations.CutSortIsSortedByHalf
  refine ⟨fun s r1 r2 h12 h2 => ?_, by decide, by decide⟩
  rw [take_rot (Nat.div_le_self _ 2), take_rot (Nat.div_le_self _ 2)]
  exact sortPerm_sortedRange s true r1 r2 (Nat.zero_le r1) h12 h2

end Sys2Proof.Machine
end

section
/-! Settles the statements of the Burrows-Wheeler transform (R140 to R148): ties in the last column, the `next` array, the
inverse on any input and on a last column, and both commands on the empty input. -/

namespace Sys2Proof.Machine

/-! ### The last column -/

/-- The last column is a function of the rotations in their order, since each byte is the last character of its own. -/
theorem lastColumn_eq_of_map_rot_eq {s : List Byte} (hs : 0 < s.length) {index index' : List Nat}
    (h : index.map (rot s) = index'.map (rot s)) : lastColumn s index = lastColumn s index' := by
  have hlen : index.length = index'.length := by simpa only [List.length_map] using congrArg List.length h
  refine List.ext_getElem (by rw [length_lastColumn, length_lastColumn, hlen]) fun r hr hr' => BitVec.eq_of_toNat_eq ?_
  rw [← List.getD_eq_getElem _ 0#8 hr, ← List.getD_eq_getElem _ 0#8 hr']
  rw [length_lastColumn] at hr hr'
  have hrot : rot s index[r] = rot s index'[r] := by
    simpa [List.getElem?_eq_getElem hr, List.getElem?_eq_getElem hr'] using congrArg (·[r]?) h
  rw [toNat_getD_lastColumn hs index r hr, toNat_getD_lastColumn hs index' r hr', List.getD_eq_getElem _ _ hr,
    List.getD_eq_getElem _ _ hr', charAt_eq_of_rot_eq hs hrot]

/-- Every order of the offsets that sorts the rotations lists the same rotations as the sort does (R124). -/
theorem map_rot_eq_map_rot_sortPerm {s : List Byte} {index : List Nat} (hperm : index.Perm (List.range s.length))
    (hsorted : (index.map (rot s)).Pairwise (fun a b => a ≤ b)) :
    index.map (rot s) = (sortPerm s false).map (rot s) :=
  List.Perm.eq_of_pairwise' hsorted (pairwise_rot_sortPerm s) ((hperm.trans (sortPerm_perm s false).symm).map (rot s))

/-- Settles O28: it holds; two sorted orders can differ only between equal rotations, which end in the same byte. -/
theorem lastColumnIgnoresTies : Obligations.LastColumnIgnoresTies := by
  unfold Obligations.LastColumnIgnoresTies
  intro s index hperm hsorted
  rcases Nat.eq_zero_or_pos s.length with h0 | hs
  · have hsort := sortPerm_perm s false
    rw [h0, List.range_zero] at hperm hsort
    rw [hperm.eq_nil, hsort.eq_nil]
  · exact lastColumn_eq_of_map_rot_eq hs (map_rot_eq_map_rot_sortPerm hperm hsorted)

/-! ### The inverse -/

/-- Settles O29: it holds; equal bytes take consecutive places, and smaller bytes the places before them. -/
theorem nextIsPermutation : Obligations.NextIsPermutation := by
  unfold Obligations.NextIsPermutation
  exact nextArray_perm

theorem getD_nextArray_lt (last : List Byte) (i : Nat) (h : i < last.length) :
    (nextArray last).getD i 0 < last.length := by
  rw [List.getD_eq_getElem _ _ (by rwa [length_nextArray])]
  exact List.mem_range.1 ((nextArray_perm last).mem_iff.1 (List.getElem_mem _))

/-- The walk fills in front of what it has. -/
theorem walk_eq_append (last : List Byte) (next : List Nat) (k cur : Nat) (out : List Byte) :
    walk last next k cur out = walk last next k cur [] ++ out := by
  induction k generalizing cur out with
  | zero => rfl
  | succ k ih => rw [walk, walk, ih, ih _ [last.getD cur 0#8], List.append_assoc, List.singleton_append]

/-- The byte at the walk's start comes last, after the bytes of the walk that goes on from `next` (R143). -/
theorem walk_succ_nil (last : List Byte) (next : List Nat) (k cur : Nat) :
    walk last next (k + 1) cur [] = walk last next k (next.getD cur 0) [] ++ [last.getD cur 0#8] :=
  walk_eq_append last next k _ _

/-- The walk stays within the last column and so reads only its bytes. -/
theorem mem_of_mem_walk {last : List Byte} {k cur : Nat} {b : Byte} (hcur : cur < last.length)
    (h : b ∈ walk last (nextArray last) k cur []) : b ∈ last := by
  induction k generalizing cur with
  | zero => cases h
  | succ k ih =>
    rw [walk_succ_nil, List.mem_append, List.mem_singleton] at h
    rcases h with h | rfl
    · exact ih (getD_nextArray_lt last cur hcur) h
    · rw [List.getD_eq_getElem _ _ hcur]
      exact List.getElem_mem hcur

/-- The byte at `first` is the final one of the output. -/
theorem getD_bwtInverse_last (last : List Byte) (first : Nat) (h : 0 < last.length) :
    (bwtInverse first last).getD (last.length - 1) 0#8 = last.getD first 0#8 := by
  obtain ⟨k, hk⟩ := Nat.exists_eq_succ_of_ne_zero h.ne'
  rw [bwtInverse, hk, walk_succ_nil, Nat.succ_sub_one, List.getD_append_right _ _ _ _ (by simp)]
  simp

/-- Settles O30: it holds; from a legal first the walk takes n steps between ranks below n. -/
theorem inverseIsTotal : Obligations.InverseIsTotal := by
  unfold Obligations.InverseIsTotal
  intro last first hfirst
  exact ⟨length_bwtInverse first last, fun b hb => mem_of_mem_walk hfirst hb,
    getD_bwtInverse_last last first (Nat.zero_lt_of_lt hfirst)⟩

/-- Settles O31: it holds, as the round trip over the sort's own order of the rotations. -/
theorem inverseOfForwardIsInput : Obligations.InverseOfForwardIsInput := by
  unfold Obligations.InverseOfForwardIsInput
  exact fun s hs => bwtInverse_sortPerm (List.length_pos_iff.2 hs)

/-! ### The empty input -/

theorem n_eq_zero_of_len {s : State} (h : s.len = 0#32) : s.n = 0 := congrArg BitVec.toNat h

/-- No operand is out of range on the empty input: FIRST is not looked at (R101, R145). -/
theorem operandError_of_n_eq_zero (i : Instr) (s : State) (h : s.n = 0) : operandError i s = none := by
  have hlen : s.n ≤ s.nmax := by omega
  by_cases hi : i = .bwti
  · have hfirst : s.firstError = none := if_neg (by omega)
    rw [hi]
    exact Option.or_eq_none_iff.2 ⟨lenError_none s hlen, hfirst⟩
  · exact operandError_of_len i s hlen hi

/-- On the empty input a command succeeds and changes no byte. -/
theorem exec_of_n_eq_zero (i : Instr) (s : State) (h : s.n = 0) :
    exec i s = .next (outputsOf i s).complete ∧ ∀ a, (outputsOf i s).complete.byteAt a = s.byteAt a :=
  ⟨exec_ok i s (operandError_of_n_eq_zero i s h), fun a =>
    byteAt_outputsOf_frame i s a (fun _ => by omega) (fun _ => by omega)⟩

/-- Settles O18: it holds; the windows' first n entries are none, and FIRST_OUT takes the value for n = 0. -/
theorem emptyForwardSetsFirstOutOnly : Obligations.EmptyForwardSetsFirstOutOnly := by
  unfold Obligations.EmptyForwardSetsFirstOutOnly
  intro s i hi hlen
  have hn := n_eq_zero_of_len hlen
  have hwrites : writesFirstOut i = true := by rcases hi with rfl | rfl <;> rfl
  obtain ⟨hexec, hbytes⟩ := exec_of_n_eq_zero i s hn
  have hfo : (outputsOf i s).firstOut = 0#32 := by rw [firstOut_outputsOf i s hwrites, if_pos hn]
  exact ⟨_, hexec, completedFrom_complete_outputsOf i s, kept_complete_outputsOf i s, hfo, hbytes⟩

/-- Settles O20: it holds; BWTI accepts every FIRST where n = 0, and never writes FIRST_OUT. -/
theorem emptyInverseWritesNothing : Obligations.EmptyInverseWritesNothing := by
  unfold Obligations.EmptyInverseWritesNothing
  intro s hlen
  obtain ⟨hexec, hbytes⟩ := exec_of_n_eq_zero .bwti s (n_eq_zero_of_len hlen)
  exact ⟨_, hexec, completedFrom_complete_outputsOf .bwti s, kept_complete_outputsOf .bwti s,
    firstOut_outputsOf_frame .bwti s rfl, hbytes⟩

end Sys2Proof.Machine
end

section
/-! SUPPORT. The recency list during an encode: the tables after the bytes seen so far, as rules about the position of a
symbol (R161), and which symbols lie behind one that has not been seen (R162). -/

namespace Sys2Proof.Machine

/-! ### Both codecs walk the same list states -/

/-- The decoder looks up each index in the table from which the encoder took it, and finds the symbol there (R165). -/
theorem mtfDecodeFrom_mtfEncodeFrom (b : List Byte) (t : Recency) (h : t.mutuallyInverse) :
    mtfDecodeFrom t.positionToSymbol (mtfEncodeFrom t b) = b := by
  induction b generalizing t with
  | nil => rfl
  | cons c rest ih =>
    have hrest := ih _ (mutuallyInverse_promote t c _ h rfl)
    obtain ⟨-, -, -, hback⟩ := h
    exact congrArg₂ List.cons (hback c) hrest

/-- The encoder finds each decoded symbol at the index that the decoder was given (R165). -/
theorem mtfEncodeFrom_mtfDecodeFrom (x : List Byte) (t : Recency) (h : t.mutuallyInverse) :
    mtfEncodeFrom t (mtfDecodeFrom t.positionToSymbol x) = x := by
  induction x generalizing t with
  | nil => rfl
  | cons idx rest ih =>
    have hrest := fun c hidx => ih (t.promote c idx) (mutuallyInverse_promote t c idx h hidx)
    obtain ⟨-, -, hpos, -⟩ := h
    rw [mtfDecodeFrom, mtfEncodeFrom, hpos idx]
    exact congrArg _ (hrest _ (hpos idx).symm)

/-! ### The position of a symbol after the bytes seen -/

/-- The tables of an encode after some bytes, from given tables (R161). -/
def Recency.after (t : Recency) (seen : List Byte) : Recency :=
  seen.foldl (fun u c => u.promote c (u.symbolToPosition.getD c.toNat 0#8)) t

theorem Recency.after_concat (t : Recency) (seen : List Byte) (e : Byte) :
    t.after (seen ++ [e]) = (t.after seen).promote e ((t.after seen).symbolToPosition.getD e.toNat 0#8) :=
  List.foldl_concat _ _ _ _

theorem mutuallyInverse_after (t : Recency) (seen : List Byte) (h : t.mutuallyInverse) :
    (t.after seen).mutuallyInverse := by
  induction seen generalizing t with
  | nil => exact h
  | cons c rest ih => exact ih _ (mutuallyInverse_promote t c _ h rfl)

/-- The position of `c` in the recency list of an encode that has seen the given bytes. -/
def positionAfter (seen : List Byte) (c : Byte) : Byte :=
  (Recency.initial.after seen).symbolToPosition.getD c.toNat 0#8

theorem getD_mtfEncodeFrom (t : Recency) (seen : List Byte) (c : Byte) (rest : List Byte) :
    (mtfEncodeFrom t (seen ++ c :: rest)).getD seen.length 0#8 =
      (t.after seen).symbolToPosition.getD c.toNat 0#8 := by
  induction seen generalizing t with
  | nil => rfl
  | cons e seen ih => exact ih _

/-- A byte encodes as its position after the bytes before it (R161). -/
theorem getD_mtfEncode (seen : List Byte) (c : Byte) (rest : List Byte) :
    (mtfEncode (seen ++ c :: rest)).getD seen.length 0#8 = positionAfter seen c :=
  getD_mtfEncodeFrom Recency.initial seen c rest

theorem getD_mtfEncode_eq_positionAfter (b : List Byte) (k : Nat) (h : k < b.length) :
    (mtfEncode b).getD k 0#8 = positionAfter (b.take k) b[k] := by
  have hsplit : b.take k ++ b[k] :: b.drop (k + 1) = b := by rw [← List.drop_eq_getElem_cons, List.take_append_drop]
  have hat := getD_mtfEncode (b.take k) b[k] (b.drop (k + 1))
  rwa [hsplit, List.length_take_of_le h.le] at hat

theorem positionAfter_nil (c : Byte) : positionAfter [] c = c := getD_identityTable c

theorem mutuallyInverse_afterInitial (seen : List Byte) : (Recency.initial.after seen).mutuallyInverse :=
  mutuallyInverse_after _ seen mutuallyInverse_initial

theorem positionAfter_concat_self (seen : List Byte) (c : Byte) : positionAfter (seen ++ [c]) c = 0#8 := by
  obtain ⟨hsym, -, -, -⟩ := mutuallyInverse_afterInitial seen
  rw [positionAfter, Recency.after_concat, getD_symbolToPosition_promote_self _ _ _ hsym]

theorem positionAfter_concat_other (seen : List Byte) (e c : Byte) (h : c ≠ e) :
    positionAfter (seen ++ [e]) c = promotedPosition (positionAfter seen e) (positionAfter seen c) := by
  obtain ⟨hsym, -, -, -⟩ := mutuallyInverse_afterInitial seen
  rw [positionAfter, Recency.after_concat, getD_symbolToPosition_promote_other _ _ _ _ hsym h]
  rfl

/-- No two symbols share a position (R35). -/
theorem positionAfter_ne (seen : List Byte) {c d : Byte} (h : c ≠ d) :
    (positionAfter seen c).toNat ≠ (positionAfter seen d).toNat := by
  obtain ⟨-, -, -, hback⟩ := mutuallyInverse_afterInitial seen
  intro heq
  refine h ((hback c).symm.trans (Eq.trans ?_ (hback d)))
  exact congrArg (fun p => (Recency.initial.after seen).positionToSymbol.getD p 0#8) heq

/-! ### The symbols behind an unseen one -/

/-- Positions other than `idx` keep their order when `idx` goes to the front. -/
theorem promotedPosition_lt_iff {idx p q : Byte} (hp : p.toNat ≠ idx.toNat) (hq : q.toNat ≠ idx.toNat) :
    (promotedPosition idx p).toNat < (promotedPosition idx q).toNat ↔ p.toNat < q.toNat := by
  rcases Nat.lt_or_gt_of_ne hp with hp | hp <;> rcases Nat.lt_or_gt_of_ne hq with hq | hq
  · rw [promotedPosition_of_lt hp, promotedPosition_of_lt hq, Nat.add_lt_add_iff_right]
  · rw [promotedPosition_of_lt hp, promotedPosition_of_ge hq.le]
    omega
  · rw [promotedPosition_of_ge hp.le, promotedPosition_of_lt hq]
    omega
  · rw [promotedPosition_of_ge hp.le, promotedPosition_of_ge hq.le]

/-- Behind a symbol that has not been seen are the greater symbols that have not been seen either, and no others: a seen
symbol went to the front, and the rest keep the order of R160 (R162). -/
theorem positionAfter_lt_iff (seen : List Byte) (c d : Byte) (hc : c ∉ seen) :
    (positionAfter seen c).toNat < (positionAfter seen d).toNat ↔ c.toNat < d.toNat ∧ d ∉ seen := by
  induction seen using List.reverseRecOn with
  | nil => simp [positionAfter_nil]
  | append_singleton seen e ih =>
    obtain ⟨hseen, hce⟩ : c ∉ seen ∧ c ≠ e := by simpa using hc
    by_cases hde : d = e
    · rw [hde, positionAfter_concat_self]
      simp
    · rw [positionAfter_concat_other _ _ _ hce, positionAfter_concat_other _ _ _ hde,
        promotedPosition_lt_iff (positionAfter_ne seen hce) (positionAfter_ne seen hde), ih hseen]
      simp [hde]

/-! ### Counting the greater bytes seen -/

/-- How many distinct bytes greater than `c` are among those seen (R162). -/
def distinctGreater (seen : List Byte) (c : Byte) : Nat :=
  (seen.dedup.filter fun b => decide (c.toNat < b.toNat)).length

/-- The order in which bytes were seen does not count. -/
theorem distinctGreater_concat (seen : List Byte) (e c : Byte) :
    distinctGreater (seen ++ [e]) c = distinctGreater (e :: seen) c :=
  ((List.perm_append_singleton e seen).dedup.filter _).length_eq

/-- One more byte counts where it is greater and new. -/
theorem distinctGreater_concat_of_new (seen : List Byte) (e c : Byte) (h : c.toNat < e.toNat ∧ e ∉ seen) :
    distinctGreater (seen ++ [e]) c = distinctGreater seen c + 1 := by
  obtain ⟨hlt, hnew⟩ := h
  rw [distinctGreater_concat, distinctGreater, List.dedup_cons_of_notMem hnew,
    List.filter_cons_of_pos (by simpa using hlt), List.length_cons, distinctGreater]

theorem distinctGreater_concat_of_not_new (seen : List Byte) (e c : Byte) (h : ¬(c.toNat < e.toNat ∧ e ∉ seen)) :
    distinctGreater (seen ++ [e]) c = distinctGreater seen c := by
  rw [distinctGreater_concat, distinctGreater, distinctGreater]
  by_cases hmem : e ∈ seen
  · rw [List.dedup_cons_of_mem hmem]
  · have hle : ¬c.toNat < e.toNat := fun hlt => h ⟨hlt, hmem⟩
    rw [List.dedup_cons_of_notMem hmem, List.filter_cons_of_neg (by simpa using hle)]

/-- An unseen symbol moves one back for each greater symbol that is seen for the first time, and never else (R162). -/
theorem toNat_positionAfter (seen : List Byte) (c : Byte) (hc : c ∉ seen) :
    (positionAfter seen c).toNat = c.toNat + distinctGreater seen c := by
  induction seen using List.reverseRecOn with
  | nil => rw [positionAfter_nil]; rfl
  | append_singleton seen e ih =>
    obtain ⟨hseen, hce⟩ : c ∉ seen ∧ c ≠ e := by simpa using hc
    have hbehind := positionAfter_lt_iff seen c e hseen
    rw [positionAfter_concat_other _ _ _ hce]
    by_cases hnew : c.toNat < e.toNat ∧ e ∉ seen
    · rw [promotedPosition_of_lt (hbehind.2 hnew), ih hseen, distinctGreater_concat_of_new _ _ _ hnew, Nat.add_assoc]
    · rw [promotedPosition_of_ge (Nat.not_lt.1 fun hlt => hnew (hbehind.1 hlt)), ih hseen,
        distinctGreater_concat_of_not_new _ _ _ hnew]

end Sys2Proof.Machine
end

section
/-! Settles the statements of the move-to-front codec (R160 to R168): the round trips on lists and on the block, runs, and
the first occurrence of a byte. -/

namespace Sys2Proof.Machine

/-- Settles O34: it holds; both codecs start from tables that are mutually inverse and keep them so. -/
theorem mtfRoundTrips : Obligations.MtfRoundTrips := by
  unfold Obligations.MtfRoundTrips
  exact ⟨fun b => mtfDecodeFrom_mtfEncodeFrom b _ mutuallyInverse_initial,
    fun x => mtfEncodeFrom_mtfDecodeFrom x _ mutuallyInverse_initial⟩

/-- A block whose SRC bytes are those of a list of LEN bytes has that list as its operand. -/
theorem operand_eq_of_srcByte (u : State) (out : List Byte) (hlen : out.length = u.n)
    (h : ∀ k, k < u.n → u.srcByte k = out.getD k 0#8) : u.operand = out := by
  refine List.ext_getElem (by rw [length_operand, hlen]) fun k hk1 hk2 => ?_
  have hk : k < u.n := hlen ▸ hk2
  rw [← List.getD_eq_getElem _ 0#8 hk1, ← List.getD_eq_getElem _ 0#8 hk2, getD_operand u k hk, h k hk]

/-- MTFE or MTFD on a length within NMAX completes with its result in DST. -/
theorem exec_mtf (i : Instr) (s : State) (hi : i = .mtfe ∨ i = .mtfd) (hl : s.n ≤ s.nmax) :
    ∃ t, exec i s = .next t ∧ s.completedFrom t ∧
      ∀ k, k < s.n → t.dstByte k = (dstResult i s.operand s.firstIndex).getD k 0#8 := by
  have htable : writesDst i = true ∧ writesPerm i = false ∧ i ≠ .bwti := by rcases hi with rfl | rfl <;> decide
  obtain ⟨hd, hp, hne⟩ := htable
  obtain ⟨t, ht, hdone, -, -, hdst, -⟩ := exec_of_writesDst_only i s hd hp (operandError_of_len i s hl hne)
  exact ⟨t, ht, hdone, hdst⟩

/-- Each of the two commands makes the input again from the other one's result (R165). -/
theorem dstResult_mtf_inverse (i j : Instr) (h : i = .mtfe ∧ j = .mtfd ∨ i = .mtfd ∧ j = .mtfe) (b : List Byte)
    (f : Nat) : (dstResult i b f).length = b.length ∧ ∀ g, dstResult j (dstResult i b f) g = b := by
  obtain ⟨hencode, hdecode⟩ := mtfRoundTrips
  rcases h with ⟨rfl, rfl⟩ | ⟨rfl, rfl⟩
  · exact ⟨length_mtfEncode b, fun _ => hencode b⟩
  · exact ⟨length_mtfDecode b, fun _ => hdecode b⟩

/-- Settles O35: it holds; the copy makes the first command's result the second one's operand, from which it makes the
input again. -/
theorem mtfRoundTripOnTheBlock : Obligations.MtfRoundTripOnTheBlock := by
  unfold Obligations.MtfRoundTripOnTheBlock
  intro s i j hij hl
  obtain ⟨hlength, hinverse⟩ := dstResult_mtf_inverse i j hij s.operand s.firstIndex
  obtain ⟨t, ht, -, hdst⟩ := exec_mtf i s (hij.imp And.left And.left) hl
  refine ⟨t, ht, fun u hparams hlen hcopy => ?_⟩
  have hn : u.n = s.n := congrArg BitVec.toNat hlen
  have hoperand : u.operand = dstResult i s.operand s.firstIndex := by
    refine operand_eq_of_srcByte u _ (by rw [hlength, length_operand, hn]) fun k hk => ?_
    rw [hn] at hk
    exact (hcopy k hk).trans (hdst k hk)
  have hlu : u.n ≤ u.nmax := by rw [hn, State.nmax, hparams]; exact hl
  obtain ⟨v, hv, hdone, hback⟩ := exec_mtf j u (hij.symm.imp And.right And.right) hlu
  refine ⟨v, hv, hdone, fun k (hk : k < s.n) => ?_⟩
  rw [hback k (hn ▸ hk), hoperand, hinverse, getD_operand s k hk]

/-- Settles O36: it holds; the byte before left this symbol at position 0. -/
theorem runsEncodeAsZero : Obligations.RunsEncodeAsZero := by
  unfold Obligations.RunsEncodeAsZero
  intro b k hk heq
  have hsame : b[k + 1] = b[k] := by
    rwa [List.getD_eq_getElem _ _ hk, List.getD_eq_getElem _ _ (Nat.lt_of_succ_lt hk)] at heq
  rw [getD_mtfEncode_eq_positionAfter b (k + 1) hk, List.take_succ_eq_append_getElem (Nat.lt_of_succ_lt hk), hsame,
    positionAfter_concat_self]

/-- Settles O37: it holds, as the position of a byte not yet seen. -/
theorem firstOccurrenceEncodesAsByteAndGreater : Obligations.FirstOccurrenceEncodesAsByteAndGreater := by
  unfold Obligations.FirstOccurrenceEncodesAsByteAndGreater
  intro seen c rest hc
  rw [getD_mtfEncode, toNat_positionAfter seen c hc, distinctGreater]

end Sys2Proof.Machine
end

section
/-! SUPPORT. Exceptions (60_exceptions.md): the command error a word reports (R201, R202), the bus error (R206), that no
step refuses and what faults (R200, R233), and how the interrupt line moves (R210, R211). -/

namespace Sys2Proof.Machine

/-! ### The command error reported (R201, R202) -/

theorem validate_of_operandError (w : Word) (s : State) (i : Instr) (e : CmdError) (hd : decode w = .instr i)
    (ho : operandError i s = some e) : validate w s = .error e := by
  simp only [validate, hd, ho]

/-- The second check of R202 on the bits of the word is that of R85 on its fields. -/
theorem rsvdField_iff (w : Word) :
    (w.extractLsb' 4 4 ≠ 0#4 ∨ w.extractLsb' 9 23 ≠ 0#23 ∨
      (w.getLsbD 8 = true ∧ w.extractLsb' 0 4 ≠ 1#4 ∧ w.extractLsb' 0 4 ≠ 2#4)) ↔
    ¬((fieldsOf w).reservedZero = true ∧ (fieldsOf w).cutLegal = true) := by
  have hrsv : (fieldsOf w).reservedZero = true ↔ w.extractLsb' 4 4 = 0#4 ∧ w.extractLsb' 9 23 = 0#23 :=
    reservedZero_iff _
  rw [hrsv, cutLegal_fieldsOf]
  tauto

/-- Operands within the ranges of R101 pass the checks. -/
theorem operandError_eq_none (i : Instr) (s : State) (hl : ¬(i ≠ .nop ∧ s.nmax < s.n))
    (hf : ¬(i = .bwti ∧ 1 ≤ s.n ∧ s.n ≤ s.firstIndex)) : operandError i s = none := by
  by_cases hnop : i = .nop
  · subst hnop
    rfl
  have hlen : s.n ≤ s.nmax := not_lt.1 fun h => hl ⟨hnop, h⟩
  by_cases hbwti : i = .bwti
  · subst hbwti
    have hrange : s.n = 0 ∨ s.firstIndex < s.n := by
      by_contra h
      exact hf ⟨rfl, by omega, by omega⟩
    exact hrange.elim (operandError_of_n_eq_zero .bwti s) (operandError_bwti s hlen)
  · exact operandError_of_len i s hlen hbwti

/-- OP is 0 for NOP alone and 3 for BWTI alone (R81). -/
theorem opCode_encode_iff (i : Instr) :
    ((encode i).extractLsb' 0 4 ≠ 0#4 ↔ i ≠ .nop) ∧ ((encode i).extractLsb' 0 4 = 3#4 ↔ i = .bwti) := by
  rw [← (op_cut_encode i).1]
  cases i <;> decide

/-- Settles O6: it holds; the first two clauses are the decoder's checks, and a word that passes them is that of an
instruction, whose operands the last three check. -/
theorem firstFailingCheckIsReported : Obligations.FirstFailingCheckIsReported := by
  unfold Obligations.FirstFailingCheckIsReported
  rintro w s _ _ _ _ rfl rfl rfl rfl
  rw [rsvdField_iff]
  have hop : (fieldsOf w).opDefined = true ↔ ¬6 ≤ (w.extractLsb' 0 4).toNat := decide_eq_true_iff.trans not_le.symm
  by_cases hillegal : 6 ≤ (w.extractLsb' 0 4).toNat
  · have hv := validate_of_decode_error w s _ (decode_of_not_opDefined w (hop.not.2 (not_not.2 hillegal)))
    simp only [hillegal, hv, not_true_eq_false, false_implies, implies_true, and_self]
  by_cases hrsvd : (fieldsOf w).reservedZero = true ∧ (fieldsOf w).cutLegal = true
  case neg =>
    have hv := validate_of_decode_error w s _ (decode_of_not_reservedZero_cutLegal w (hop.2 hillegal) hrsvd)
    simp only [hillegal, hrsvd, hv, not_true_eq_false, not_false_eq_true, false_implies, implies_true, and_self]
  obtain ⟨i, rfl⟩ := exists_eq_encode_of_wellFormed w ((wellFormed_iff _).2 ⟨hop.2 hillegal, hrsvd⟩)
  have hd := decode_encode i
  obtain ⟨hnop, hbwti⟩ := opCode_encode_iff i
  rw [hnop, hbwti]
  refine ⟨fun h => absurd h hillegal, fun _ h => absurd hrsvd h, fun _ _ ⟨hi, hl⟩ => ?_,
    fun _ _ hl ⟨hi, h1, hf⟩ => ?_, fun _ _ hl hf =>
      ⟨i, hd, (validate_instr _ s i).2 ⟨hd, operandError_eq_none i s hl hf⟩⟩⟩
  · exact validate_of_operandError _ s i _ hd (operandError_of_len_gt i s hl hi)
  · subst hi
    exact validate_of_operandError _ s _ _ hd (operandError_bwti_first s h1 (not_lt.1 fun h => hl ⟨nofun, h⟩) hf)

/-! ### The bus error (R62, R206) -/

/-- A request that is not aligned is answered with `err = 1` and applied to nothing. -/
theorem request_not_aligned (s : State) (r : Request) (latency : Nat) (h : r.isAligned = false) :
    s.request r latency = (s.setDraws (s.draws + 1)).setResponse
      (some { rdata := match r.kind with | .read => some s.nextAny | .write _ => none, err := true }) := by
  rw [State.request, State.applyRequest, State.respond, h]
  cases r.kind <;> rfl

theorem isAligned_eq_false (r : Request) (h : r.size ≠ .four ∨ r.offset.toNat % 4 ≠ 0) : r.isAligned = false := by
  rwa [Request.isAligned, Bool.and_eq_false_iff, decide_eq_false_iff_not, decide_eq_false_iff_not]

/-- Settles O38: it holds, for a read and for a write. -/
theorem busErrorChangesNothing : Obligations.BusErrorChangesNothing := by
  unfold Obligations.BusErrorChangesNothing
  intro s r latency rest hin h
  have hstep := step_request s r latency rest hin
  rw [request_not_aligned _ r latency (isAligned_eq_false r h)] at hstep
  refine ⟨fun hk => ?_, fun v hk => ?_⟩ <;> rw [hstep, hk] <;> rfl

/-! ### Faults and refusals (R200, R233) -/

/-- A step answers a next state, unless its input is a request that overlaps reset. -/
theorem step_next_or_resetDuring (s : State) :
    (∃ t, step s = .next t) ∧ (∀ r rest, s.inputs ≠ .resetDuring r :: rest) ∨
    step s = .fault .requestDuringReset ∧ ∃ r rest, s.inputs = .resetDuring r :: rest := by
  match hin : s.inputs with
  | [] => exact Or.inl ⟨step_nothing s hin ▸ passCycle_next s, nofun⟩
  | .cycle :: rest => exact Or.inl ⟨step_cycle s rest hin ▸ passCycle_next _, nofun⟩
  | .request r latency :: rest => exact Or.inl ⟨⟨_, step_request s r latency rest hin⟩, nofun⟩
  | .reset :: rest => exact Or.inl ⟨⟨(s.setInputs rest).resetBlock, by rw [step, hin]; rfl⟩, nofun⟩
  | .resetDuring r :: rest => exact Or.inr ⟨by rw [step, hin]; rfl, r, rest, rfl⟩

/-- Settles O54: it holds, by the input the step takes. -/
theorem stepFaultsOnlyOnRequestDuringReset : Obligations.StepFaultsOnlyOnRequestDuringReset := by
  unfold Obligations.StepFaultsOnlyOnRequestDuringReset
  intro s
  rcases step_next_or_resetDuring s with ⟨⟨t, ht⟩, hin⟩ | ⟨hf, hin⟩
  · rw [ht]
    exact ⟨nofun, nofun, fun ⟨r, rest, h⟩ => absurd h (hin r rest)⟩
  · rw [hf]
    exact ⟨nofun, fun _ => hin, fun _ => ⟨_, rfl⟩⟩

/-! ### The interrupt line (R210, R211) -/

theorem irq_iff (s : State) :
    s.irq = true ↔
      s.status.done = true ∧ s.irqEn.getLsbD 0 = true ∨ s.status.ovr = true ∧ s.irqEn.getLsbD 1 = true := by
  simp only [State.irq, State.doneIe, State.ovrIe, Bool.or_eq_true, Bool.and_eq_true]

/-- The line stays up while its enables stay and no source is cleared. -/
theorem irq_of_sources_kept {s t : State} (h : s.irq = true) (hen : t.irqEn = s.irqEn)
    (hdone : s.status.done = true → t.status.done = true) (hovr : s.status.ovr = true → t.status.ovr = true) :
    t.irq = true := by
  rw [irq_iff] at h ⊢
  rw [hen]
  exact h.imp (And.imp_left hdone) (And.imp_left hovr)

/-- A completion step sets DONE and keeps OVR, with an error or without (R102, R104). -/
theorem irq_exec {i : Instr} {s t : State} (ht : exec i s = .next t) (h : s.irq = true) : t.irq = true := by
  rw [exec_eq_runCommand] at ht
  rcases runCommand_cases i s _ t ht with ⟨e, -, rfl⟩ | ⟨-, rfl⟩
  · exact irq_of_sources_kept h rfl (fun _ => rfl) id
  · obtain ⟨-, -, hstatus, -, -, hen, -⟩ := outputsOf_frame i s
    exact irq_of_sources_kept h hen (fun _ => rfl) fun hovr => (congrArg Status.ovr hstatus).trans hovr

theorem irq_passCycle {s t : State} (ht : s.passCycle = .next t) (h : s.irq = true) : t.irq = true := by
  rcases passCycle_cases s t ht with ⟨-, rfl⟩ | ⟨i, k, -, -, rfl⟩ | ⟨i, k, -, -, hexec⟩
  · exact h
  · exact h
  · exact irq_exec hexec h

/-- Only a write to CMD, STATUS or IRQ_EN can lower the line: a dropped write sets OVR, and any other leaves STATUS. -/
theorem irq_memWrite (s : State) (off : Nat) (v : Word) (latency : Nat) (ha : off % 4 = 0) (h : s.irq = true) :
    (s.memWrite off v latency).irq = true ∨
      off = Reg.offset .cmd ∨ off = Reg.offset .status ∨ off = Reg.offset .irqEn := by
  rcases memWrite_cases s off v latency ha with
    ⟨-, -, e⟩ | e | ⟨-, ho, -⟩ | ⟨ho, -⟩ | ⟨-, -, e⟩ | ⟨-, -, e⟩ | ⟨ho, -⟩ | ⟨-, m, e, -⟩
  · rw [e]
    exact Or.inl (irq_of_sources_kept h rfl id fun _ => rfl)
  · rw [e]
    exact Or.inl h
  · exact Or.inr (Or.inl ho)
  · exact Or.inr (Or.inr (Or.inl ho))
  · rw [e]
    exact Or.inl h
  · rw [e]
    exact Or.inl h
  · exact Or.inr (Or.inr (Or.inr ho))
  · rw [e]
    exact Or.inl h

theorem irq_request (s : State) (r : Request) (latency : Nat) (h : s.irq = true) :
    (s.request r latency).irq = true ∨
      ∃ v, r.kind = .write v ∧ r.isAligned = true ∧
        (r.offset = 0x10#23 ∨ r.offset = 0x14#23 ∨ r.offset = 0x24#23) := by
  have hirq : (s.request r latency).irq = (s.applyRequest r latency).irq := rfl
  rw [hirq]
  rcases applyRequest_cases s r latency with e | ⟨v, hk, hal, ha, e⟩ <;> rw [e]
  · exact Or.inl h
  · have hoff : ∀ o : Offset, r.offset.toNat = o.toNat → r.offset = o := fun _ => BitVec.eq_of_toNat_eq
    exact (irq_memWrite s _ v latency ha h).imp_right fun ho =>
      ⟨v, hk, hal, ho.imp (hoff _) (Or.imp (hoff _) (hoff _))⟩

/-- A step that lowers the line took a reset, or an aligned write to CMD, STATUS or IRQ_EN. -/
theorem step_irq_falls (s t : State) (ht : step s = .next t) (h : s.irq = true) (hlow : t.irq = false) :
    (∃ rest, s.inputs = .reset :: rest) ∨
    ∃ r latency rest v, s.inputs = .request r latency :: rest ∧ r.kind = .write v ∧ r.isAligned = true ∧
      (r.offset = 0x10#23 ∨ r.offset = 0x14#23 ∨ r.offset = 0x24#23) := by
  have hdown : ¬t.irq = true := Bool.not_eq_true _ ▸ hlow
  rcases step_cases s t ht with ⟨-, hc⟩ | ⟨rest, -, hc⟩ | ⟨r, latency, rest, hin, rfl⟩ | ⟨rest, hin, -⟩
  · exact absurd (irq_passCycle hc h) hdown
  · exact absurd (irq_passCycle hc h) hdown
  · obtain ⟨v, hv⟩ := (irq_request (s.setInputs rest) r latency h).resolve_left hdown
    exact Or.inr ⟨r, latency, rest, v, hin, hv⟩
  · exact Or.inl ⟨rest, hin⟩

/-- Settles O49: it holds; the step sets DONE in the first and third clause, clears it in the second, and lowers the line
only as the fourth allows. -/
theorem interruptRisesAndIsNeverLost : Obligations.InterruptRisesAndIsNeverLost := by
  unfold Obligations.InterruptRisesAndIsNeverLost
  intro s t ht
  refine ⟨fun w latency rest e he hin hv hie => ?_, fun w latency rest i he hin hv => ?_,
    fun i k rest hE hk hin hie => ?_, step_irq_falls s t ht⟩
  · obtain ⟨u, hu, -, -, hstatus, -, -, -, -, -, hen, -⟩ := failedCommandWritesNothing s w latency rest e he hin hv
    cases ht.symm.trans hu
    rw [irq_iff, hstatus, hen]
    exact Or.inl ⟨rfl, hie⟩
  · obtain ⟨u, hu, -, -, hstatus, -, -, -, -, hen, -⟩ := cmdWriteWhileIdleIsAccepted s w latency rest i he hin hv
    cases ht.symm.trans hu
    rw [State.irq, State.doneIe, State.ovrIe, hstatus, hen, Bool.false_and, Bool.false_or]
  · obtain ⟨rest', hin'⟩ : ∃ rest', s.inputs = .cycle :: rest' ∨ s.inputs = [] ∧ rest' = [] :=
      hin.elim (fun h => ⟨rest, Or.inl h⟩) fun h => ⟨[], Or.inr ⟨h, rfl⟩⟩
    rw [step_noRequest s rest' hin', passCycle_due (s.setInputs rest') i k hE hk] at ht
    obtain ⟨u, hu, -, hdone, -, -, -, -, hen, -⟩ := exists_exec i (s.setInputs rest')
    cases ht.symm.trans hu
    exact (irq_iff t).2 (Or.inl ⟨hdone, hen ▸ hie⟩)

end Sys2Proof.Machine
end


section
/-! SUPPORT. A write dropped or ignored while BUSY (R240, R65, R30), and the block after a reset (R230, R231). -/

namespace Sys2Proof.Machine

/-! ### Writes while BUSY (R240, R65) -/

theorem accept_setInputs (s : State) (inputs : List Input) (w : Word) (latency : Nat) :
    (s.setInputs inputs).accept w latency = (s.accept w latency).setInputs inputs := by
  have hv : validate w (s.setInputs inputs) = validate w s := validate_congr w _ s rfl rfl rfl
  rw [State.accept, State.accept, hv]
  cases validate w s <;> rfl

theorem writeLane_setInputs (s : State) (inputs : List Input) (base j : Nat) (b : Byte) :
    (s.setInputs inputs).writeLane base j b = (s.writeLane base j b).setInputs inputs := by
  rw [State.writeLane, State.writeLane, apply_ite (State.setInputs · inputs)]
  rfl

theorem writePerm_setInputs (s : State) (inputs : List Input) (i : Nat) (v : Word) :
    (s.setInputs inputs).writePerm i v = (s.writePerm i v).setInputs inputs := by
  rw [State.writePerm, State.writePerm, apply_ite (State.setInputs · inputs)]
  rfl

theorem writeWord_setInputs (s : State) (inputs : List Input) (base k : Nat) (v : Word) :
    (s.setInputs inputs).writeWord base k v = (s.writeWord base k v).setInputs inputs := by
  simp only [State.writeWord, writeLane_setInputs]

theorem writeReg_setInputs (s : State) (inputs : List Input) (v : Word) (latency : Nat) (r : Reg) :
    (s.setInputs inputs).writeReg v latency r = (s.writeReg v latency r).setInputs inputs := by
  cases r with
  | cmd => exact accept_setInputs s inputs v latency
  | id | version | caps | status | len | first | firstOut | irqEn => rfl

/-- A write does not read the schedule. -/
theorem memWrite_setInputs (s : State) (inputs : List Input) (off : Nat) (v : Word) (latency : Nat) :
    (s.setInputs inputs).memWrite off v latency = (s.memWrite off v latency).setInputs inputs := by
  rw [State.memWrite, State.memWrite, apply_ite (State.setInputs · inputs)]
  congr 1
  cases locOf off with
  | reg r => exact writeReg_setInputs s inputs v latency r
  | src k => exact writeWord_setInputs s inputs srcBase k v
  | dst k => exact writeWord_setInputs s inputs dstBase k v
  | perm i => exact writePerm_setInputs s inputs i v
  | reserved => rfl

/-- The offsets R240 protects while BUSY: CMD, LEN, FIRST and the window words with a byte below NMAX. -/
def isProtectedOffset (nmax off : Nat) : Prop :=
  off = 0x10 ∨ off = 0x18 ∨ off = 0x1C ∨
    0x100000 ≤ off ∧ off < 0x200000 ∧ off < 0x100000 + nmax ∨
    0x200000 ≤ off ∧ off < 0x300000 ∧ off < 0x200000 + nmax ∨
    0x400000 ≤ off ∧ off < 0x400000 + 4 * nmax

theorem isProtected_locOf (nmax off : Nat) (hmod : off % 4 = 0) (hlt : off < 0x800000)
    (h : isProtectedOffset nmax off) : (locOf off).isProtected nmax = true := by
  rcases h with rfl | rfl | rfl | ⟨h1, h2, h3⟩ | ⟨h1, h2, h3⟩ | ⟨h1, h2⟩
  · rfl
  · rfl
  · rfl
  · rw [locOf_src off h1 h2]
    exact decide_eq_true (by omega)
  · rw [locOf_dst off h1 h2]
    exact decide_eq_true (by omega)
  · rw [locOf_perm off h1 hlt]
    exact decide_eq_true (by omega)

theorem memWrite_dropped (s : State) (off : Nat) (v : Word) (latency : Nat) (hb : s.busy = true)
    (hp : (locOf off).isProtected s.nmax = true) : s.memWrite off v latency = s.dropWrite := by
  rw [State.memWrite, hb, hp, Bool.and_self, if_pos rfl]

/-- Settles O45: it holds; the write is dropped at a protected offset and ignored beyond NMAX, and STATUS and IRQ_EN are
not protected. -/
theorem busyDropsProtectedWrites : Obligations.BusyDropsProtectedWrites := by
  unfold Obligations.BusyDropsProtectedWrites
  intro s r v latency rest off hin hk hs hoff hmod
  subst hoff
  have hlt : r.offset.toNat < 0x800000 := r.offset.isLt
  refine ⟨s.memWrite r.offset.toNat v latency, ?_, fun hb h => ?_, fun _ h => ?_, fun h => ?_, fun h => ?_⟩
  · rw [step_write s r v latency rest hin hk hs hmod, memWrite_setInputs]
    rfl
  · exact memWrite_dropped s _ v latency hb (isProtected_locOf s.nmax _ hmod hlt h)
  · have hignored : isIgnoredOffset s.params.nmax r.offset.toNat := by
      unfold isIgnoredOffset
      omega
    exact memWrite_ignoredOffset s _ v latency hmod hlt hignored
  · rw [h]
    exact memWrite_reg s .status v latency (Or.inr rfl)
  · rw [h, ← BitVec.setWidth_eq_extractLsb' (by decide)]
    exact memWrite_reg s .irqEn v latency (Or.inr rfl)

/-! ### Reset (R230, R231) -/

theorem step_reset (s : State) (rest : List Input) (h : s.inputs = .reset :: rest) :
    step s = .next (s.setInputs rest).resetBlock := by
  rw [step, h]
  rfl

/-- After a reset every buffer byte is the free value of the new count of resets (R231). -/
theorem byteAt_resetBlock (s : State) (a : Nat) : s.resetBlock.byteAt a = Config.unspecifiedByte (s.resets + 1) a := rfl

theorem statusWord_reset : statusWord State.reset.busy State.reset.status = 0#32 := by decide

/-- Settles O50: it holds; a reset takes every register from the reset state, whatever the phase. -/
theorem resetSetsEverything : Obligations.ResetSetsEverything := by
  unfold Obligations.ResetSetsEverything
  intro s rest hin
  exact ⟨_, step_reset s rest hin, rfl, rfl, statusWord_reset, rfl, rfl, rfl, rfl, rfl, rfl, byteAt_resetBlock _, rfl⟩

/-- Settles O51: it holds; the reset state is IDLE, its buffers list nothing and its parameters are legal. -/
theorem invariantHoldsAtReset : Obligations.InvariantHoldsAtReset := by
  unfold Obligations.InvariantHoldsAtReset
  have hlegal : State.reset.params.legal = true :=
    (legal_iff _).2 ⟨by decide, by decide, by decide⟩
  exact (inv_iff State.reset).2 ⟨hlegal, rfl, rfl, rfl, pendingValid_idle State.reset rfl⟩

end Sys2Proof.Machine
end
